-- ==== Sys2Proof/Word.lean ====
section
/-! DEFINITION. The words of the block: bytes, 32-bit registers, and the host transaction record. -/

namespace Sys2Proof

/-- A `u8` of 00_scope.md R7. -/
abbrev Byte := BitVec 8

/-- A `u32` of 00_scope.md R7: the width of every register and of a buffer address (92 D4). -/
abbrev Word := BitVec 32

/-- A host transaction as the record of four fields of 30_encoding.md R70. Every access of the host
is one such record, whatever its fields hold. -/
structure Transaction where
  /-- K, the kind: 0b00 REGR, 0b01 REGW, 0b10 BUFR, 0b11 BUFW. -/
  k : BitVec 2
  /-- X, the register index of REGR and REGW. -/
  x : BitVec 3
  /-- A, the buffer address of BUFR and BUFW. -/
  a : Word
  /-- D, the write data of REGW and BUFW. -/
  d : Word
  deriving DecidableEq, Repr

/-- The 69-bit packed form `T = {K, X, A, D}` of 30_encoding.md R71. -/
abbrev Packed := BitVec 69

end Sys2Proof
end

