-- ==== Sys2Proof/Syntax.lean ====
section
/-! DEFINITION. The instructions: one constructor for each row of spec/opcode_table.json. -/

namespace Sys2Proof

/-- One constructor per row of the opcode table (30_encoding.md R74 and R75). A field the row ignores
is no operand, except the data D of a register or buffer write, which is kept whole: which of its bits
count is the meaning's affair (R73). -/
inductive Instr where
  /-- RD_CTRL (40_host_interface.md R101). -/
  | rdCtrl
  /-- RD_STATUS (R102). -/
  | rdStatus
  /-- RD_ADDR (R103). -/
  | rdAddr
  /-- RD_LEN (R104). -/
  | rdLen
  /-- RD_ACC (R105). -/
  | rdAcc
  /-- RD_RESULT (R106). -/
  | rdResult
  /-- RD_DATA_IN (R107). -/
  | rdDataIn
  /-- RD_R7 (R108). -/
  | rdR7
  /-- WR_CTRL (R109) with its command word, before the command rows have been tried. No transaction
  decodes to it: the command rows come first and match every word (R71, R75; log entry 6). -/
  | wrCtrl (d : Word)
  /-- WR_STATUS (R110) with its clear mask. -/
  | wrStatus (d : Word)
  /-- WR_ADDR (R111). -/
  | wrAddr (d : Word)
  /-- WR_LEN (R112). -/
  | wrLen (d : Word)
  /-- WR_ACC (R113). -/
  | wrAcc (d : Word)
  /-- WR_RESULT (R114); its data is ignored. -/
  | wrResult (d : Word)
  /-- WR_DATA_IN, also called CRC_BYTE (41_crc32_engine.md R147); the byte is D[7:0]. -/
  | wrDataIn (d : Word)
  /-- WR_R7 (R115); its data is ignored. -/
  | wrR7 (d : Word)
  /-- BUFR (R117) of buffer address A. -/
  | bufr (a : Word)
  /-- BUFW (R118) to buffer address A; the byte is D[7:0]. -/
  | bufw (a : Word) (d : Word)
  /-- NOP, command word 0 (R119). -/
  | nop
  /-- CRC_INIT, command word 1 (41_crc32_engine.md R146). -/
  | crcInit
  /-- CRC_SPAN, command word 2 (R148). -/
  | crcSpan
  /-- CRC_COMPUTE, command word 3 (R149). -/
  | crcCompute
  /-- DFU_APPEND, command word 4 (42_dfu_suffix.md R178). -/
  | dfuAppend
  /-- CMD_RSVD, the row of command word 5 (R120). -/
  | cmdRsvd5
  /-- CMD_RSVD, the row of command word 6 (R120). -/
  | cmdRsvd6
  /-- CMD_RSVD, the row of command word 7 (R120). -/
  | cmdRsvd7
  /-- CMD_RSVD, the catch-all row (R120): a command word with D[31:3] != 0. -/
  | cmdRsvdOther (d : Word)
  deriving DecidableEq, Repr

end Sys2Proof
end

