-- ==== Sys2Proof/WellFormed.lean ====
section
/-! DEFINITION. Which instructions a decoder can answer. -/

namespace Sys2Proof

/-- The checks: a WR_CTRL is not itself the answer of a decode, since its word belongs to a command row
(30_encoding.md R71, R75), and the catch-all reserved row holds only words with RSV = D[31:3] != 0.
Every other operand admits all its values (R70). -/
def Instr.wellFormed : Instr → Bool
  | .rdCtrl => true
  | .rdStatus => true
  | .rdAddr => true
  | .rdLen => true
  | .rdAcc => true
  | .rdResult => true
  | .rdDataIn => true
  | .rdR7 => true
  | .wrCtrl _ => false
  | .wrStatus _ => true
  | .wrAddr _ => true
  | .wrLen _ => true
  | .wrAcc _ => true
  | .wrResult _ => true
  | .wrDataIn _ => true
  | .wrR7 _ => true
  | .bufr _ => true
  | .bufw _ _ => true
  | .nop => true
  | .crcInit => true
  | .crcSpan => true
  | .crcCompute => true
  | .dfuAppend => true
  | .cmdRsvd5 => true
  | .cmdRsvd6 => true
  | .cmdRsvd7 => true
  | .cmdRsvdOther d => decide (d.extractLsb' 3 29 ≠ 0)

/-- `i` passes the checks. -/
abbrev Instr.WellFormed (i : Instr) : Prop := i.wellFormed = true

end Sys2Proof
end

