-- ==== Sys2Proof/Decode.lean ====
section
/-! DEFINITION. From a transaction to its instruction and back (30_encoding.md R70 to R77), the packed
form, and the opcode table as data. -/

namespace Sys2Proof

/-- Why bits are no transaction. -/
inductive DecodeError where
  /-- The number has a bit at or above position 69, and so is no packed transaction (R71). -/
  | notATransaction
  deriving DecidableEq, Repr

/-- `T[68:67] = K`, `T[66:64] = X`, `T[63:32] = A`, `T[31:0] = D` (R71). -/
def Transaction.unpack (T : Packed) : Transaction where
  k := T.extractLsb' 67 2
  x := T.extractLsb' 64 3
  a := T.extractLsb' 32 32
  d := T.extractLsb' 0 32

/-- `T = {K, X, A, D}` (R71). -/
def Transaction.pack (t : Transaction) : Packed :=
  t.k ++ t.x ++ t.a ++ t.d

/-- A number as a packed transaction: 69 bits, and no bit above them. -/
def Transaction.ofNat (w : Nat) : Except DecodeError Transaction :=
  if w < 2 ^ 69 then .ok (Transaction.unpack (BitVec.ofNat 69 w)) else .error .notATransaction

/-- The command rows, tried in order, the first match winning (R75). -/
def decodeCommand (d : Word) : Instr :=
  if d = 0 then .nop
  else if d = 1 then .crcInit
  else if d = 2 then .crcSpan
  else if d = 3 then .crcCompute
  else if d = 4 then .dfuAppend
  else if d = 5 then .cmdRsvd5
  else if d = 6 then .cmdRsvd6
  else if d = 7 then .cmdRsvd7
  else .cmdRsvdOther d

/-- The register reads, K = 0b00 (R74). -/
def decodeRegRead (x : BitVec 3) : Instr :=
  match x.toNat with
  | 0 => .rdCtrl
  | 1 => .rdStatus
  | 2 => .rdAddr
  | 3 => .rdLen
  | 4 => .rdAcc
  | 5 => .rdResult
  | 6 => .rdDataIn
  | _ => .rdR7

/-- The register writes, K = 0b01 (R74); a write to CTRL is decoded further by its word (R75). -/
def decodeRegWrite (x : BitVec 3) (d : Word) : Instr :=
  match x.toNat with
  | 0 => decodeCommand d
  | 1 => .wrStatus d
  | 2 => .wrAddr d
  | 3 => .wrLen d
  | 4 => .wrAcc d
  | 5 => .wrResult d
  | 6 => .wrDataIn d
  | _ => .wrR7 d

/-- Every transaction decodes, to exactly one row (R4, R74). The fields a kind ignores do not count. -/
def decode (t : Transaction) : Instr :=
  match t.k.toNat with
  | 0 => decodeRegRead t.x
  | 1 => decodeRegWrite t.x t.d
  | 2 => .bufr t.a
  | _ => .bufw t.a t.d

/-- Decoding the packed form; bits above the 69 of R71 are refused by name. -/
def decodePacked (w : Nat) : Except DecodeError Instr :=
  (Transaction.ofNat w).map decode

/-- A transaction of a register read: the ignored fields are written as 0 (R71). -/
def encodeRegRead (x : BitVec 3) : Transaction := ⟨0b00#2, x, 0, 0⟩

/-- A transaction of a register write. -/
def encodeRegWrite (x : BitVec 3) (d : Word) : Transaction := ⟨0b01#2, x, 0, d⟩

/-- The transaction of an instruction, written from the tables of R74 and R75, with the ignored fields
0 as the assembler writes them (R71). -/
def encode : Instr → Transaction
  | .rdCtrl => encodeRegRead 0
  | .rdStatus => encodeRegRead 1
  | .rdAddr => encodeRegRead 2
  | .rdLen => encodeRegRead 3
  | .rdAcc => encodeRegRead 4
  | .rdResult => encodeRegRead 5
  | .rdDataIn => encodeRegRead 6
  | .rdR7 => encodeRegRead 7
  | .wrCtrl d => encodeRegWrite 0 d
  | .wrStatus d => encodeRegWrite 1 d
  | .wrAddr d => encodeRegWrite 2 d
  | .wrLen d => encodeRegWrite 3 d
  | .wrAcc d => encodeRegWrite 4 d
  | .wrResult d => encodeRegWrite 5 d
  | .wrDataIn d => encodeRegWrite 6 d
  | .wrR7 d => encodeRegWrite 7 d
  | .bufr a => ⟨0b10#2, 0, a, 0⟩
  | .bufw a d => ⟨0b11#2, 0, a, d⟩
  | .nop => encodeRegWrite 0 0
  | .crcInit => encodeRegWrite 0 1
  | .crcSpan => encodeRegWrite 0 2
  | .crcCompute => encodeRegWrite 0 3
  | .dfuAppend => encodeRegWrite 0 4
  | .cmdRsvd5 => encodeRegWrite 0 5
  | .cmdRsvd6 => encodeRegWrite 0 6
  | .cmdRsvd7 => encodeRegWrite 0 7
  | .cmdRsvdOther d => encodeRegWrite 0 d

/-- One row of the opcode table over the packed form: `T` matches it when `T & mask = pattern` (R71). -/
structure OpcodeRow where
  mnemonic : String
  pattern : Packed
  mask : Packed
  deriving DecidableEq, Repr

/-- `T & mask = pattern` (R71). -/
def OpcodeRow.matchesWord (r : OpcodeRow) (T : Packed) : Bool := T &&& r.mask == r.pattern

/-- A row of the selector table of R74, its mask on the five selector bits. -/
def selectorRow (mnemonic : String) (sel selMask : Nat) : OpcodeRow :=
  ⟨mnemonic, BitVec.ofNat 69 (sel * 2 ^ 64), BitVec.ofNat 69 (selMask * 2 ^ 64)⟩

/-- A row of the command table of R75: the selector of WR_CTRL and a pattern on D. -/
def commandRow (mnemonic : String) (d dMask : Nat) : OpcodeRow :=
  ⟨mnemonic, BitVec.ofNat 69 (0b01000 * 2 ^ 64 + d), BitVec.ofNat 69 (0b11111 * 2 ^ 64 + dMask)⟩

/-- The row of the opcode table that a constructor stands for. -/
def Instr.row : Instr → OpcodeRow
  | .rdCtrl => selectorRow "RD_CTRL" 0b00000 0b11111
  | .rdStatus => selectorRow "RD_STATUS" 0b00001 0b11111
  | .rdAddr => selectorRow "RD_ADDR" 0b00010 0b11111
  | .rdLen => selectorRow "RD_LEN" 0b00011 0b11111
  | .rdAcc => selectorRow "RD_ACC" 0b00100 0b11111
  | .rdResult => selectorRow "RD_RESULT" 0b00101 0b11111
  | .rdDataIn => selectorRow "RD_DATA_IN" 0b00110 0b11111
  | .rdR7 => selectorRow "RD_R7" 0b00111 0b11111
  | .wrCtrl _ => selectorRow "WR_CTRL" 0b01000 0b11111
  | .wrStatus _ => selectorRow "WR_STATUS" 0b01001 0b11111
  | .wrAddr _ => selectorRow "WR_ADDR" 0b01010 0b11111
  | .wrLen _ => selectorRow "WR_LEN" 0b01011 0b11111
  | .wrAcc _ => selectorRow "WR_ACC" 0b01100 0b11111
  | .wrResult _ => selectorRow "WR_RESULT" 0b01101 0b11111
  | .wrDataIn _ => selectorRow "WR_DATA_IN" 0b01110 0b11111
  | .wrR7 _ => selectorRow "WR_R7" 0b01111 0b11111
  | .bufr _ => selectorRow "BUFR" 0b10000 0b11000
  | .bufw _ _ => selectorRow "BUFW" 0b11000 0b11000
  | .nop => commandRow "NOP" 0 0xFFFFFFFF
  | .crcInit => commandRow "CRC_INIT" 1 0xFFFFFFFF
  | .crcSpan => commandRow "CRC_SPAN" 2 0xFFFFFFFF
  | .crcCompute => commandRow "CRC_COMPUTE" 3 0xFFFFFFFF
  | .dfuAppend => commandRow "DFU_APPEND" 4 0xFFFFFFFF
  | .cmdRsvd5 => commandRow "CMD_RSVD" 5 0xFFFFFFFF
  | .cmdRsvd6 => commandRow "CMD_RSVD" 6 0xFFFFFFFF
  | .cmdRsvd7 => commandRow "CMD_RSVD" 7 0xFFFFFFFF
  | .cmdRsvdOther _ => commandRow "CMD_RSVD" 0 0

/-- One instruction of each row, in the order in which the rows are tried: the command rows before
WR_CTRL, the catch-all the last of them (R71, R75). -/
def rowsInOrder : List OpcodeRow :=
  [Instr.nop, .crcInit, .crcSpan, .crcCompute, .dfuAppend, .cmdRsvd5, .cmdRsvd6, .cmdRsvd7,
    .cmdRsvdOther 0, .rdCtrl, .rdStatus, .rdAddr, .rdLen, .rdAcc, .rdResult, .rdDataIn, .rdR7,
    .wrCtrl 0, .wrStatus 0, .wrAddr 0, .wrLen 0, .wrAcc 0, .wrResult 0, .wrDataIn 0, .wrR7 0,
    .bufr 0, .bufw 0 0].map Instr.row

/-- The row a packed word belongs to: the first that matches (R71). -/
def firstRow (T : Packed) : Option OpcodeRow := rowsInOrder.find? (·.matchesWord T)

/-- The transaction held by the low `nbits` bits of `w`, every bit above them 0. -/
def tableTransaction (nbits w : Nat) : Option Transaction :=
  match Transaction.ofNat (w % 2 ^ nbits) with
  | .ok t => some t
  | .error _ => none

/-- The instruction the decoder reads from an instruction whose bits are `w`, numbered as the table
numbers them (the packed form of R71). -/
def decodeTableWord (nbits w : Nat) : Option Instr :=
  (tableTransaction nbits w).map decode

end Sys2Proof
end

