-- ==== Sys2Proof/Config.lean ====
section
/-! DEFINITION. The one parameter of the block, `BUF_SIZE` (00_scope.md R5), and its bounds.
A state carries the size it runs with (`State.bufSize`), so that a claim over all states is a claim
over all sizes; the number below is only the size `State.reset` starts with. -/

namespace Sys2Proof.Config

/-- The least `BUF_SIZE` (00_scope.md R5). -/
def bufSizeMin : Nat := 16

/-- The greatest `BUF_SIZE`, 2^32 (00_scope.md R5). -/
def bufSizeMax : Nat := 4294967296

/-- The `BUF_SIZE` that `State.reset` is given. DESIGN CHOICE (log entry 1): the spec leaves the size
open; 64 is the size most vectors of 95_test_vectors.md use. Unsafe: a claim about `State.reset`
itself binds this one size. -/
def resetBufSize : Nat := 64

/-- `n` is a legal buffer size (00_scope.md R5). -/
abbrev legalBufSize (n : Nat) : Prop := bufSizeMin ≤ n ∧ n ≤ bufSizeMax

end Sys2Proof.Config
end

