-- ==== Sys2Proof/Machine/State.lean ====
section
/-! DEFINITION. The state of the block (10_state.md R20), what the host has still to issue, what the last
transaction returned, and why a step can stop. -/

namespace Sys2Proof.Machine

/-- The buffer BUF (10_state.md R30) with its written marks (R31): the pairs of an address and the byte
written there, addresses strictly rising. An address that is not listed is unwritten and has no value,
so no entry can equal what an unlisted address reads as. -/
abbrev Memory := List Host.Cell

/-- What the host does to the block, one event at a time. -/
inductive HostEvent where
  /-- The host issues a transaction (30_encoding.md R70). -/
  | transaction (t : Transaction)
  /-- Power-on, or the reset input asserted, between two transactions (70_reset_and_hazards.md R230, R232). -/
  | reset
  deriving DecidableEq, Repr

/-- The two error events of 60_exceptions.md R200. -/
inductive ErrorEvent where
  /-- ErrCmd: a reserved command word (R201). -/
  | errCmd
  /-- ErrRange: a span or an address outside the buffer (R202). -/
  | errRange
  deriving DecidableEq, Repr

/-- The state: the block's own (R20), then the parameter (R5), then the two ends of the host port. -/
structure State where
  /-- ADDR (R22). -/
  addr : Word
  /-- LEN (R23). -/
  len : Word
  /-- ACC (R24). -/
  acc : Word
  /-- STATUS.ERR_CMD (R26). -/
  errCmd : Bool
  /-- STATUS.ERR_RANGE (R26). -/
  errRange : Bool
  /-- BUF (R30) and its written marks (R31). -/
  buf : Memory
  /-- BUF_SIZE (00_scope.md R5): the parameter of the block, the same in every step (log entry 1). -/
  bufSize : Nat
  /-- The read data that the last transaction returned to the host, `none` when it returned nothing
  (30_encoding.md R70). The model's own field (log entry 4). -/
  response : Option Word
  /-- The events the host has still to bring, the next one first. The model's own field, for the host
  of R3 (log entry 2). -/
  pending : List HostEvent
  deriving DecidableEq, Repr

/-- Why the machine stops. -/
inductive Fault where
  /-- `Unwritten(a)` (00_scope.md R10): BUFR, CRC_SPAN, CRC_COMPUTE or DFU_APPEND read buffer byte `a`,
  which nothing has written since reset. Safe: the hardware goes on with an unspecified byte (R203),
  and no claim can rest on it. -/
  | unwritten (a : Nat)
  deriving DecidableEq, Repr

/-- Why an instruction has no meaning. -/
inductive Refusal where
  /-- An instruction without a meaning in the model. No arm of `exec` raises it: the block refuses no
  transaction (00_scope.md R4). Safe. -/
  | notModelled (mnemonic : String)
  deriving DecidableEq, Repr

/-- The block after reset, for a given BUF_SIZE (70_reset_and_hazards.md R230), with nothing returned and
nothing pending. -/
def State.resetOf (bufSize : Nat) : State where
  addr := 0x00000000
  len := 0x00000000
  acc := 0xFFFFFFFF
  errCmd := false
  errRange := false
  buf := []
  bufSize := bufSize
  response := none
  pending := []

/-- The machine right after reset (R230), with the BUF_SIZE of log entry 1. -/
def State.reset : State := State.resetOf Config.resetBufSize

end Sys2Proof.Machine
end

