-- ==== Sys2Proof/Machine/Operands.lean ====
section
/-! DEFINITION. Operand forms: the bits of D an access uses (30_encoding.md R73), and the ranges that ADDR,
LEN and A name, all in unbounded integers (00_scope.md R8). -/

namespace Sys2Proof.Machine

/-- The byte of a BUFW or of a WR_DATA_IN, `D[7:0]` (R73). -/
def dataByte (d : Word) : Byte := d.extractLsb' 0 8

/-- The clear mask of a WR_STATUS, `D[1:0]` (R73). -/
def clearMask (d : Word) : BitVec 2 := d.extractLsb' 0 2

/-- `zext_32(b)` (00_scope.md R7). -/
def zextByte (b : Byte) : Word := b.setWidth 32

/-- `A < BUF_SIZE` (20_memory.md R51). -/
def State.inBuffer (s : State) (a : Nat) : Bool := decide (a < s.bufSize)

/-- `ADDR`, the first address of the span (10_state.md R22). -/
def State.spanStart (s : State) : Nat := s.addr.toNat

/-- `LEN`, the number of bytes of the span (10_state.md R23). -/
def State.spanLen (s : State) : Nat := s.len.toNat

/-- `ADDR + LEN`, never reduced modulo 2^32 (00_scope.md R8). -/
def State.spanEnd (s : State) : Nat := s.spanStart + s.spanLen

/-- `ADDR + LEN <= BUF_SIZE` (60_exceptions.md R202). -/
def State.spanFits (s : State) : Bool := decide (s.spanEnd ≤ s.bufSize)

/-- `ADDR + LEN + 16 <= BUF_SIZE` (60_exceptions.md R202). -/
def State.suffixFits (s : State) : Bool := decide (s.spanEnd + 16 ≤ s.bufSize)

end Sys2Proof.Machine
end

