-- ==== Sys2Proof/Machine/Ops.lean ====
section
/-! DEFINITION. The named operations: the buffer, spans of it, little-endian values, raising an error,
answering the host, and the host's queue of events. -/

namespace Sys2Proof.Machine

/-! ### The buffer as a list of cells -/

/-- The byte at an address, `none` when nothing has been written there. -/
def Memory.read : Memory → Nat → Option Byte
  | [], _ => none
  | (k, v) :: m, a => if a = k then some v else Memory.read m a

/-- Put a byte at an address, in its place among the rising addresses. -/
def Memory.write : Memory → Nat → Byte → Memory
  | [], a, b => [(a, b)]
  | (k, v) :: m, a, b =>
    if a < k then (a, b) :: (k, v) :: m
    else if a = k then (a, b) :: m
    else (k, v) :: Memory.write m a b

/-- Put a byte sequence at consecutive addresses from `a` upward. -/
def Memory.writeBytes : Memory → Nat → List Byte → Memory
  | m, _, [] => m
  | m, a, b :: bs => Memory.writeBytes (Memory.write m a b) (a + 1) bs

/-- Every listed address is at least `lo`, and the addresses rise strictly. -/
def Memory.risesFrom : Nat → Memory → Bool
  | _, [] => true
  | lo, (k, _) :: m => decide (lo ≤ k) && Memory.risesFrom (k + 1) m

/-- The canonical form: addresses strictly rising. Two canonical buffers that read alike are equal. -/
def Memory.wf (m : Memory) : Bool := Memory.risesFrom 0 m

/-! ### Little-endian values (00_scope.md R10, 20_memory.md R53) -/

/-- The `n` bytes of `v` from the least significant: byte `i` is `v[8*i+7 : 8*i]`. -/
def leBytes : Nat → Nat → List Byte
  | 0, _ => []
  | n + 1, v => BitVec.ofNat 8 v :: leBytes n (v / 256)

/-- The value of a byte sequence, `sum over i of b_i * 2^(8*i)`. -/
def leValue : List Byte → Nat
  | [] => 0
  | b :: bs => b.toNat + 256 * leValue bs

/-! ### MemRead and MemWrite (00_scope.md R10) -/

/-- `MemRead(a, 1)`: the byte, or the model fault `Unwritten(a)` (R10, 10_state.md R31). The range is the
caller's to check (60_exceptions.md R202). -/
def State.memRead (s : State) (a : Nat) : Except Fault Byte :=
  match s.buf.read a with
  | some b => .ok b
  | none => .error (.unwritten a)

/-- `BUF[a .. a+n-1]`, read in increasing address order (41_crc32_engine.md R142, 20_memory.md R54); the
first unwritten byte is the fault. -/
def State.readSpan (s : State) : Nat → Nat → Except Fault (List Byte)
  | _, 0 => .ok []
  | a, n + 1 =>
    match s.memRead a with
    | .error f => .error f
    | .ok b =>
      match s.readSpan (a + 1) n with
      | .error f => .error f
      | .ok bs => .ok (b :: bs)

/-- `MemRead(a, n)`, little-endian (R10). -/
def State.memReadN (s : State) (a n : Nat) : Except Fault Nat := (s.readSpan a n).map leValue

/-- `MemWrite(a, 1, b)`: the byte is stored and marked written (R10, 10_state.md R31). -/
def State.memWrite (s : State) (a : Nat) (b : Byte) : State := { s with buf := s.buf.write a b }

/-- `MemWrite(a + j, 1, bs[j])` for each `j` in order. -/
def State.memWriteBytes (s : State) (a : Nat) (bs : List Byte) : State :=
  { s with buf := s.buf.writeBytes a bs }

/-- `MemWrite(a, n, v)`, little-endian (R10). -/
def State.memWriteN (s : State) (a n v : Nat) : State := s.memWriteBytes a (leBytes n v)

/-! ### Errors (00_scope.md R11, 60_exceptions.md R200 to R207) -/

/-- `raise`: the one thing an error does is set its flag (R11, R206). There is no trap to enter and none
to return from (R206, R207); a flag is cleared by WR_STATUS or reset. -/
def State.raise (s : State) : ErrorEvent → State
  | .errCmd => { s with errCmd := true }
  | .errRange => { s with errRange := true }

/-! ### Answering the host (30_encoding.md R70) -/

/-- A read transaction returns 32 bits. -/
def State.returns (s : State) (v : Word) : State := { s with response := some v }

/-- A write transaction returns nothing. -/
def State.returnsNothing (s : State) : State := { s with response := none }

/-! ### The host's events -/

/-- The next event and the state that waits for the one after it (20_memory.md R61). -/
def State.fetch (s : State) : Option (HostEvent × State) :=
  match s.pending with
  | [] => none
  | e :: es => some (e, { s with pending := es })

/-- Bring an event before all others. -/
def State.placeNext (s : State) (e : HostEvent) : State := { s with pending := e :: s.pending }

/-- A reset event in mid-run (70_reset_and_hazards.md R230, R232): the reset state of this block's size.
What the host brings next is not the block's to forget (log entry 7). -/
def State.afterResetEvent (s : State) : State :=
  { State.resetOf s.bufSize with pending := s.pending }

end Sys2Proof.Machine
end

