-- ==== Sys2Proof/Machine/BufferAccess.lean ====
section
/-! DEFINITION. The host's buffer accesses of 40_host_interface.md section 4. -/

namespace Sys2Proof.Machine

/-- BUFR (R117): out of range, ErrRange and 0; in range, the byte zero-extended, or the model fault when
nothing has written it. -/
def execBufr (a : Word) (s : State) : Host.Outcome State Fault Refusal :=
  if s.inBuffer a.toNat then
    match s.memRead a.toNat with
    | .ok b => .next (s.returns (zextByte b))
    | .error f => .fault f
  else .next ((s.raise .errRange).returns 0x00000000)

/-- BUFW (R118): out of range, ErrRange and no write; in range, the byte D[7:0] is stored. -/
def execBufw (a : Word) (d : Word) (s : State) : Host.Outcome State Fault Refusal :=
  if s.inBuffer a.toNat then .next (s.memWrite a.toNat (dataByte d)).returnsNothing
  else .next (s.raise .errRange).returnsNothing

end Sys2Proof.Machine
end

