-- ==== Sys2Proof/Machine/Flags.lean ====
section
/-! DEFINITION. The registers that are computed and not stored: STATUS as a word, its write-1-to-clear,
and RESULT. -/

namespace Sys2Proof.Machine

/-- The STATUS bit an error event sets, its code (60_exceptions.md R200). -/
def errorCode : ErrorEvent → Nat
  | .errCmd => 0
  | .errRange => 1

/-- STATUS as it reads: `{0 (30 bits), ERR_RANGE, ERR_CMD}` (40_host_interface.md R102). -/
def State.statusWord (s : State) : Word :=
  (0#30 ++ BitVec.ofBool s.errRange) ++ BitVec.ofBool s.errCmd

/-- Write-1-to-clear of the two flags (40_host_interface.md R110): a 0 bit leaves its flag. -/
def State.clearFlags (s : State) (mask : BitVec 2) : State :=
  { s with
    errCmd := if mask.getLsbD 0 then false else s.errCmd
    errRange := if mask.getLsbD 1 then false else s.errRange }

/-- RESULT as it reads: `ACC ^ 0xFFFFFFFF` (10_state.md R25). -/
def State.resultWord (s : State) : Word := crcFinish s.acc

end Sys2Proof.Machine
end

