-- ==== Sys2Proof/Machine/RegisterReads.lean ====
section
/-! DEFINITION. The register reads of 40_host_interface.md section 2. None has a side effect (20_memory.md R59). -/

namespace Sys2Proof.Machine

/-- RD_CTRL (R101): the command port has no storage and reads 0. -/
def execRdCtrl (s : State) : Host.Outcome State Fault Refusal := .next (s.returns 0x00000000)

/-- RD_STATUS (R102). -/
def execRdStatus (s : State) : Host.Outcome State Fault Refusal := .next (s.returns s.statusWord)

/-- RD_ADDR (R103). -/
def execRdAddr (s : State) : Host.Outcome State Fault Refusal := .next (s.returns s.addr)

/-- RD_LEN (R104). -/
def execRdLen (s : State) : Host.Outcome State Fault Refusal := .next (s.returns s.len)

/-- RD_ACC (R105): the raw accumulator. -/
def execRdAcc (s : State) : Host.Outcome State Fault Refusal := .next (s.returns s.acc)

/-- RD_RESULT (R106). -/
def execRdResult (s : State) : Host.Outcome State Fault Refusal := .next (s.returns s.resultWord)

/-- RD_DATA_IN (R107): the byte port has no storage and reads 0. -/
def execRdDataIn (s : State) : Host.Outcome State Fault Refusal := .next (s.returns 0x00000000)

/-- RD_R7 (R108): the reserved index reads 0 and is no error. -/
def execRdR7 (s : State) : Host.Outcome State Fault Refusal := .next (s.returns 0x00000000)

end Sys2Proof.Machine
end

