-- ==== Sys2Proof/Machine/RegisterWrites.lean ====
section
/-! DEFINITION. The register writes of 40_host_interface.md section 3, but for WR_CTRL (WrCtrl.lean) and
WR_DATA_IN (CrcEngine.lean). -/

namespace Sys2Proof.Machine

/-- WR_STATUS (R110): clears the flags its mask selects. -/
def execWrStatus (d : Word) (s : State) : Host.Outcome State Fault Refusal :=
  .next (s.clearFlags (clearMask d)).returnsNothing

/-- WR_ADDR (R111): no range is checked here. -/
def execWrAddr (d : Word) (s : State) : Host.Outcome State Fault Refusal :=
  .next { s with addr := d }.returnsNothing

/-- WR_LEN (R112): no range is checked here. -/
def execWrLen (d : Word) (s : State) : Host.Outcome State Fault Refusal :=
  .next { s with len := d }.returnsNothing

/-- WR_ACC (R113). -/
def execWrAcc (d : Word) (s : State) : Host.Outcome State Fault Refusal :=
  .next { s with acc := d }.returnsNothing

/-- WR_RESULT (R114): ignored. -/
def execWrResult (_d : Word) (s : State) : Host.Outcome State Fault Refusal := .next s.returnsNothing

/-- WR_R7 (R115): ignored. -/
def execWrR7 (_d : Word) (s : State) : Host.Outcome State Fault Refusal := .next s.returnsNothing

end Sys2Proof.Machine
end

