-- ==== Sys2Proof/Machine/CrcEngine.lean ====
section
/-! DEFINITION. The operations of the CRC32 engine, 41_crc32_engine.md section 2. -/

namespace Sys2Proof.Machine

/-- CRC_INIT (R146). -/
def execCrcInit (s : State) : Host.Outcome State Fault Refusal :=
  .next { s with acc := crcInit }.returnsNothing

/-- WR_DATA_IN, CRC_BYTE (R147): one byte continues whatever ACC holds. -/
def execWrDataIn (d : Word) (s : State) : Host.Outcome State Fault Refusal :=
  .next { s with acc := step8 s.acc (dataByte d) }.returnsNothing

/-- The span ADDR, LEN folded from `c` into ACC, all or nothing (R148, R149; 00_scope.md R11). -/
def accumulateSpan (c : Word) (s : State) : Host.Outcome State Fault Refusal :=
  if s.spanFits then
    match s.readSpan s.spanStart s.spanLen with
    | .ok bs => .next { s with acc := crcFold c bs }.returnsNothing
    | .error f => .fault f
  else .next (s.raise .errRange).returnsNothing

/-- CRC_SPAN (R148): from the running accumulator. -/
def execCrcSpan (s : State) : Host.Outcome State Fault Refusal := accumulateSpan s.acc s

/-- CRC_COMPUTE (R149): from the initial accumulator. -/
def execCrcCompute (s : State) : Host.Outcome State Fault Refusal := accumulateSpan crcInit s

end Sys2Proof.Machine
end

