-- ==== Sys2Proof/Machine/Suffix.lean ====
section
/-! DEFINITION. The DFU suffix of 42_dfu_suffix.md section 1. -/

namespace Sys2Proof.Machine

/-- bcdDevice (R170). -/
def bcdDevice : BitVec 16 := 0xFFFF

/-- idProduct (R170). -/
def idProduct : BitVec 16 := 0xFFFF

/-- idVendor (R170). -/
def idVendor : BitVec 16 := 0xFFFF

/-- bcdDFU (R170, R173). -/
def bcdDFU : BitVec 16 := 0x0100

/-- ucDfuSignature[0], 'D' (R170). -/
def dfuSig0 : Byte := 0x44

/-- ucDfuSignature[1], 'F' (R170). -/
def dfuSig1 : Byte := 0x46

/-- ucDfuSignature[2], 'U' (R170). -/
def dfuSig2 : Byte := 0x55

/-- bLength, the length of the whole suffix (R174). -/
def suffixLength : Nat := 16

/-- The 12 fixed bytes `FIXED` in file order (R171): the 16-bit fields little-endian (R53), the signature
reversed (R172), then bLength. -/
def fixedSuffix : List Byte :=
  leBytes 2 bcdDevice.toNat ++ leBytes 2 idProduct.toNat ++ leBytes 2 idVendor.toNat
    ++ leBytes 2 bcdDFU.toNat ++ [dfuSig2, dfuSig1, dfuSig0] ++ [BitVec.ofNat 8 suffixLength]

/-- `dwCRC = crc32(image ++ FIXED)` (R175). -/
def dwCrc (image : List Byte) : Word := crc32 (image ++ fixedSuffix)

/-- The 16 bytes of the suffix of an image (R171, R176). -/
def suffixOf (image : List Byte) : List Byte := fixedSuffix ++ leBytes 4 (dwCrc image).toNat

end Sys2Proof.Machine
end

