-- ==== Sys2Proof/Machine/DfuSuffix.lean ====
section
/-! DEFINITION. The command of the DFU suffix formatter, 42_dfu_suffix.md section 2. -/

namespace Sys2Proof.Machine

/-- DFU_APPEND (R178), in the order of its pseudocode: the range check, FIXED after the image, the CRC of
image and FIXED read from the buffer, dwCRC little-endian after them, then ACC and LEN. -/
def execDfuAppend (s : State) : Host.Outcome State Fault Refusal :=
  if s.suffixFits then
    let s1 := s.memWriteBytes s.spanEnd fixedSuffix
    match s1.readSpan s.spanStart (s.spanLen + 12) with
    | .ok bs =>
      let c := crcFold crcInit bs
      let s2 := s1.memWriteN (s.spanEnd + 12) 4 (crcFinish c).toNat
      .next { s2 with acc := c, len := BitVec.ofNat 32 (s.spanLen + suffixLength) }.returnsNothing
    | .error f => .fault f
  else .next (s.raise .errRange).returnsNothing

end Sys2Proof.Machine
end

