-- ==== Sys2Proof/Machine/PlainCommands.lean ====
section
/-! DEFINITION. The commands that are neither CRC nor suffix commands, 40_host_interface.md section 5. -/

namespace Sys2Proof.Machine

/-- NOP (R119). -/
def execNop (s : State) : Host.Outcome State Fault Refusal := .next s.returnsNothing

/-- A reserved command word raises ErrCmd; no range is looked at (R120, 60_exceptions.md R201, R205). -/
def reservedCommand (s : State) : Host.Outcome State Fault Refusal :=
  .next (s.raise .errCmd).returnsNothing

/-- CMD_RSVD, word 5 (R120). -/
def execCmdRsvd5 (s : State) : Host.Outcome State Fault Refusal := reservedCommand s

/-- CMD_RSVD, word 6 (R120). -/
def execCmdRsvd6 (s : State) : Host.Outcome State Fault Refusal := reservedCommand s

/-- CMD_RSVD, word 7 (R120). -/
def execCmdRsvd7 (s : State) : Host.Outcome State Fault Refusal := reservedCommand s

/-- CMD_RSVD, every word with RSV != 0 (R120): its CMD field runs no command. -/
def execCmdRsvdOther (_d : Word) (s : State) : Host.Outcome State Fault Refusal := reservedCommand s

end Sys2Proof.Machine
end

