-- ==== Sys2Proof/Machine/WrCtrl.lean ====
section
/-! DEFINITION. WR_CTRL, 40_host_interface.md R109. -/

namespace Sys2Proof.Machine

/-- WR_CTRL (R109): the command its word selects, run inside this transaction; nothing of D is stored. -/
def execWrCtrl (d : Word) (s : State) : Host.Outcome State Fault Refusal :=
  if d = 0x00000000 then execNop s
  else if d = 0x00000001 then execCrcInit s
  else if d = 0x00000002 then execCrcSpan s
  else if d = 0x00000003 then execCrcCompute s
  else if d = 0x00000004 then execDfuAppend s
  else reservedCommand s

end Sys2Proof.Machine
end

