-- ==== Sys2Proof/Machine/Dispatch.lean ====
section
/-! DEFINITION. One arm for each constructor of Instr, each a direct call of its meaning. -/

namespace Sys2Proof.Machine

def exec (i : Instr) (s : State) : Host.Outcome State Fault Refusal :=
  match i with
  | .rdCtrl => Sys2Proof.Machine.execRdCtrl s
  | .rdStatus => Sys2Proof.Machine.execRdStatus s
  | .rdAddr => Sys2Proof.Machine.execRdAddr s
  | .rdLen => Sys2Proof.Machine.execRdLen s
  | .rdAcc => Sys2Proof.Machine.execRdAcc s
  | .rdResult => Sys2Proof.Machine.execRdResult s
  | .rdDataIn => Sys2Proof.Machine.execRdDataIn s
  | .rdR7 => Sys2Proof.Machine.execRdR7 s
  | .wrCtrl d => Sys2Proof.Machine.execWrCtrl d s
  | .wrStatus d => Sys2Proof.Machine.execWrStatus d s
  | .wrAddr d => Sys2Proof.Machine.execWrAddr d s
  | .wrLen d => Sys2Proof.Machine.execWrLen d s
  | .wrAcc d => Sys2Proof.Machine.execWrAcc d s
  | .wrResult d => Sys2Proof.Machine.execWrResult d s
  | .wrDataIn d => Sys2Proof.Machine.execWrDataIn d s
  | .wrR7 d => Sys2Proof.Machine.execWrR7 d s
  | .bufr a => Sys2Proof.Machine.execBufr a s
  | .bufw a d => Sys2Proof.Machine.execBufw a d s
  | .nop => Sys2Proof.Machine.execNop s
  | .crcInit => Sys2Proof.Machine.execCrcInit s
  | .crcSpan => Sys2Proof.Machine.execCrcSpan s
  | .crcCompute => Sys2Proof.Machine.execCrcCompute s
  | .dfuAppend => Sys2Proof.Machine.execDfuAppend s
  | .cmdRsvd5 => Sys2Proof.Machine.execCmdRsvd5 s
  | .cmdRsvd6 => Sys2Proof.Machine.execCmdRsvd6 s
  | .cmdRsvd7 => Sys2Proof.Machine.execCmdRsvd7 s
  | .cmdRsvdOther d => Sys2Proof.Machine.execCmdRsvdOther d s

end Sys2Proof.Machine
end

