-- ==== Sys2Proof/Machine/Step.lean ====
section
/-! DEFINITION. One step: one event of the host, run to completion (00_scope.md R3). -/

namespace Sys2Proof.Machine

/-- One whole transaction, or one reset event; with nothing pending the block waits (70_reset_and_hazards.md
R231; log entry 3). Transactions take effect in the order of the queue (20_memory.md R61). -/
def step (s : State) : Host.Outcome State Fault Refusal :=
  match s.fetch with
  | none => .next s
  | some (.reset, s') => .next s'.afterResetEvent
  | some (.transaction t, s') => exec (decode t) s'

/-- `s` with the transaction of these bits as the next event of the host (log entry 2). Bits that are no
transaction bring no event. -/
def State.withFetchWord (s : State) (nbits w : Nat) : State :=
  match tableTransaction nbits w with
  | some t => s.placeNext (.transaction t)
  | none => s

end Sys2Proof.Machine
end

