-- ==== Sys2Proof/Machine/HostProgram.lean ====
section
/-! DEFINITION. The host's side of the port: the syntax of host programs as abstract lines, their assembly to
transactions (30_encoding.md R78, R79), and instructions run one after another. No rule of the machine
depends on the syntax (92_eei_decisions.md D22). -/

namespace Sys2Proof.Machine

/-- The register names of R78, indices 0 to 7. -/
inductive RegName where
  | ctrl | status | addr | len | acc | result | dataIn | r7
  deriving DecidableEq, Repr

/-- `index(NAME)` (R78, 20_memory.md R52). -/
def RegName.index : RegName → BitVec 3
  | .ctrl => 0
  | .status => 1
  | .addr => 2
  | .len => 3
  | .acc => 4
  | .result => 5
  | .dataIn => 6
  | .r7 => 7

/-- One line of a host program: the four transactions of R78 and the pseudo-instructions of R79. Numbers
are as written, before the assembler looks at their size (log entries 12, 13 and 14). -/
inductive AsmLine where
  | rd (r : RegName)
  | wr (r : RegName) (imm : Nat)
  | ldb (addr : Nat)
  | stb (addr imm : Nat)
  | nop
  | crcInit
  | crcSpan
  | crcCompute
  | dfuAppend
  | crcb (imm : Nat)
  | clrerr
  | span (a n : Nat)
  | crc32 (a n : Nat)
  | dfu (a n : Nat)
  | stbs (a : Nat) (bytes : List Nat)
  | stbsText (a : Nat) (text : List Char)
  deriving DecidableEq, Repr

/-- A number that must fit the 32 bits of its field; a wider one is rejected. DESIGN CHOICE (log entry 12): R78
names the fields imm32 and addr32 and states no rejection. -/
def asmWord (n : Nat) : Option Word := if n < 2 ^ 32 then some (BitVec.ofNat 32 n) else none

/-- `rd NAME` (R78). -/
def asmRd (r : RegName) : Transaction := ⟨0b00#2, r.index, 0, 0⟩

/-- `wr NAME, imm32` (R78). -/
def asmWr (r : RegName) (imm : Nat) : Option Transaction :=
  (asmWord imm).map fun d => ⟨0b01#2, r.index, 0, d⟩

/-- `ldb addr32` (R78). -/
def asmLdb (addr : Nat) : Option Transaction :=
  (asmWord addr).map fun a => ⟨0b10#2, 0, a, 0⟩

/-- `stb addr32, imm8`; the assembler rejects imm8 > 255 (R78). -/
def asmStb (addr imm : Nat) : Option Transaction :=
  if imm > 255 then none else (asmWord addr).map fun a => ⟨0b11#2, 0, a, BitVec.ofNat 32 imm⟩

/-- All lines, or none when one is rejected (log entry 14). -/
def asmAll : List (Option Transaction) → Option (List Transaction)
  | [] => some []
  | none :: _ => none
  | some t :: ts => (asmAll ts).map (t :: ·)

/-- `stb a, b0 ; stb a+1, b1 ; ...` (R79). DESIGN CHOICE (log entry 14): R79 writes the form with at least `b0`;
an `stbs` of no bytes is accepted here, whatever the number `a`, as no transaction. -/
def asmStbs : Nat → List Nat → List (Option Transaction)
  | _, [] => []
  | a, b :: bs => asmStb a b :: asmStbs (a + 1) bs

/-- The transactions of a line (R78, R79); `none` when the assembler rejects it. DESIGN CHOICE (log entry 13):
a `crcb` whose number is above 255 is not rejected. R79 writes imm8 and states a rejection only for `stb`; the
line is taken as its expansion `wr DATA_IN, imm`, the number whole in D, so the machine feeds its low byte. DESIGN CHOICE (log entry 14): an `stbs` of no bytes or
of an empty text is no transaction. DESIGN CHOICE (log entry 12): a text with a character outside ASCII is
rejected. -/
def assemble : AsmLine → Option (List Transaction)
  | .rd r => some [asmRd r]
  | .wr r imm => asmAll [asmWr r imm]
  | .ldb a => asmAll [asmLdb a]
  | .stb a b => asmAll [asmStb a b]
  | .nop => asmAll [asmWr .ctrl 0]
  | .crcInit => asmAll [asmWr .ctrl 1]
  | .crcSpan => asmAll [asmWr .ctrl 2]
  | .crcCompute => asmAll [asmWr .ctrl 3]
  | .dfuAppend => asmAll [asmWr .ctrl 4]
  | .crcb b => asmAll [asmWr .dataIn b]
  | .clrerr => asmAll [asmWr .status 3]
  | .span a n => asmAll [asmWr .addr a, asmWr .len n, asmWr .ctrl 2]
  | .crc32 a n => asmAll [asmWr .addr a, asmWr .len n, asmWr .ctrl 3]
  | .dfu a n => asmAll [asmWr .addr a, asmWr .len n, asmWr .ctrl 4]
  | .stbs a bs => asmAll (asmStbs a bs)
  | .stbsText a text =>
    if text.all (fun c => decide (c.toNat < 128)) then asmAll (asmStbs a (text.map Char.toNat))
    else none

/-- The host queues transactions behind those it has queued already (20_memory.md R61). -/
def State.issue (s : State) (ts : List Transaction) : State :=
  { s with pending := s.pending ++ ts.map .transaction }

/-- Instructions one after another, stopping at the first fault or refusal (20_memory.md R61). -/
def execAll : List Instr → State → Host.Outcome State Fault Refusal
  | [], s => .next s
  | i :: is, s =>
    match exec i s with
    | .next t => execAll is t
    | .fault f => .fault f
    | .refused r => .refused r

end Sys2Proof.Machine
end

