-- ==== Sys2Proof/Safety.lean ====
section
/-! DEFINITION. The terms the claims use: the invariant of a state, what the buffer holds, and when an
access raises ErrRange. -/

namespace Sys2Proof.Machine

/-- The invariant of every run: the buffer in its canonical form, no byte listed outside the buffer
(10_state.md R30), and a legal BUF_SIZE (00_scope.md R5). -/
abbrev State.Inv (s : State) : Prop :=
  s.buf.wf = true ∧ (∀ c ∈ s.buf, c.1 < s.bufSize) ∧ Config.legalBufSize s.bufSize

/-- `bs` stands in the buffer at `a, a+1, ...`, every byte of it written. -/
def State.holdsBytes (s : State) (a : Nat) (bs : List Byte) : Prop :=
  ∀ j, j < bs.length → s.buf.read (a + j) = bs[j]?

/-- The span ADDR, LEN lies in the buffer and holds `bs` (41_crc32_engine.md R148, R149). -/
def State.spanHolds (s : State) (bs : List Byte) : Prop :=
  s.addr.toNat + s.len.toNat ≤ s.bufSize ∧ bs.length = s.len.toNat ∧ s.holdsBytes s.addr.toNat bs

/-- The image ADDR, LEN is `image`, and the 16 bytes after it lie in the buffer (42_dfu_suffix.md R178). -/
def State.imageReady (s : State) (image : List Byte) : Prop :=
  s.addr.toNat + s.len.toNat + 16 ≤ s.bufSize ∧ image.length = s.len.toNat
    ∧ s.holdsBytes s.addr.toNat image

/-- The conditions of ErrRange, one for each of the five transactions (60_exceptions.md R202); a WR_CTRL
stands for the command its word selects (40_host_interface.md R109). -/
def rangeErrorCondition (i : Instr) (s : State) : Prop :=
  ((i = .crcSpan ∨ i = .crcCompute ∨ i = .wrCtrl 2 ∨ i = .wrCtrl 3) ∧
      s.bufSize < s.addr.toNat + s.len.toNat)
    ∨ ((i = .dfuAppend ∨ i = .wrCtrl 4) ∧ s.bufSize < s.addr.toNat + s.len.toNat + 16)
    ∨ (∃ a, i = .bufr a ∧ s.bufSize ≤ a.toNat)
    ∨ (∃ a d, i = .bufw a d ∧ s.bufSize ≤ a.toNat)

/-- The instructions of a reserved command word (60_exceptions.md R201); a WR_CTRL stands for the command
its word selects. -/
def reservedWord (i : Instr) : Prop :=
  i = .cmdRsvd5 ∨ i = .cmdRsvd6 ∨ i = .cmdRsvd7 ∨ (∃ d, i = .cmdRsvdOther d)
    ∨ (∃ d, i = .wrCtrl d ∧ 5 ≤ d.toNat)

/-- The register reads of 40_host_interface.md section 2. -/
def isRegisterRead (i : Instr) : Prop :=
  i = .rdCtrl ∨ i = .rdStatus ∨ i = .rdAddr ∨ i = .rdLen ∨ i = .rdAcc ∨ i = .rdResult
    ∨ i = .rdDataIn ∨ i = .rdR7

/-- The register writes that only store or clear: every one but WR_CTRL and WR_DATA_IN (20_memory.md R59). -/
def isPlainRegisterWrite (i : Instr) : Prop :=
  ∃ d, i = .wrStatus d ∨ i = .wrAddr d ∨ i = .wrLen d ∨ i = .wrAcc d ∨ i = .wrResult d ∨ i = .wrR7 d

/-- The next event of the host is a transaction that decodes to `i`. -/
def State.nextIs (s : State) (i : Instr) : Prop :=
  ∃ t rest, s.pending = .transaction t :: rest ∧ decode t = i

/-- The next event of the host is a reset. -/
def State.nextIsReset (s : State) : Prop := ∃ rest, s.pending = .reset :: rest

end Sys2Proof.Machine
end

