-- ==== Sys2Proof/Certificates/Slice0/Obligations.lean ====
section
/-! DEFINITION. The statements for the provers. Each docstring names the rules of spec/ a statement formalises;
where a clause rests on a choice of the model, it names the log entry. -/

open Sys2Proof Sys2Proof.Machine

/-! ### Decoding -/

/-- Packed words of 95_test_vectors.md section 5, and words of the reserved rows, decode to what they stand
for; a number with bit 69 set is refused by name as no transaction, which is the model's choice (log
entry 8, DESIGN CHOICE). A sanity statement. -/
def Obligations.PackedWordsDecode : Prop :=
  decodePacked 0x010000000000000000 = .ok .rdStatus ∧
  decodePacked 0x050000000000000000 = .ok .rdResult ∧
  decodePacked 0x0A0000000000000020 = .ok (.wrAddr 0x20) ∧
  decodePacked 0x0C00000000641C1F5C = .ok (.wrAcc 0x641C1F5C) ∧
  decodePacked 0x0E0000000000000031 = .ok (.wrDataIn 0x31) ∧
  decodePacked 0x100000001100000000 = .ok (.bufr 0x11) ∧
  decodePacked 0x180000002800000039 = .ok (.bufw 0x28 0x39) ∧
  decodePacked 0x080000000000000000 = .ok .nop ∧
  decodePacked 0x080000000000000002 = .ok .crcSpan ∧
  decodePacked 0x080000000000000004 = .ok .dfuAppend ∧
  decodePacked 0x080000000000000007 = .ok .cmdRsvd7 ∧
  decodePacked 0x080000000000000009 = .ok (.cmdRsvdOther 9) ∧
  decodePacked 0x200000000000000000 = .error .notATransaction

/-- Decode and encode agree for every well-formed instruction, every operand at every value
(30_encoding.md R70, R71, R74, R75), through the record and through the packed word. -/
def Obligations.DecodeOfEncodeIsIdentity : Prop :=
  ∀ i : Instr, i.WellFormed →
    decode (encode i) = i ∧ decodePacked (encode i).pack.toNat = .ok i

/-- Every packed word belongs to exactly the row of the opcode table that the decoder answers: the first
row it matches, the command rows before WR_CTRL (R71, R74, R75). -/
def Obligations.DecodeFollowsOpcodeTable : Prop :=
  ∀ T : Packed, firstRow T = some (decode (Transaction.unpack T)).row

/-- Every transaction decodes to a well-formed instruction (R4, R74), whatever its fields hold. -/
def Obligations.EveryTransactionDecodesWellFormed : Prop :=
  ∀ t : Transaction, (decode t).WellFormed

/-- The fields R70 calls ignored do not change what a transaction decodes to. -/
def Obligations.IgnoredFieldsDoNotMatter : Prop :=
  ∀ (x x' : BitVec 3) (a a' d d' : Word),
    decode ⟨0b00#2, x, a, d⟩ = decode ⟨0b00#2, x, a', d'⟩ ∧
    decode ⟨0b01#2, x, a, d⟩ = decode ⟨0b01#2, x, a', d⟩ ∧
    decode ⟨0b10#2, x, a, d⟩ = decode ⟨0b10#2, x', a, d'⟩ ∧
    decode ⟨0b11#2, x, a, d⟩ = decode ⟨0b11#2, x', a, d⟩

/-- The packed form and the record are the same transaction, both ways (R71). -/
def Obligations.PackAndUnpackAreInverse : Prop :=
  (∀ t : Transaction, Transaction.unpack t.pack = t) ∧
  (∀ T : Packed, (Transaction.unpack T).pack = T)

/-- Each line of a host program assembles to the transactions of R78 and R79, shown by what they decode to:
`rd` and `wr` of every name, `ldb`, `stb`, the plain commands, `crcb` of a byte, `clrerr`, the three spans,
and `stbs` of bytes that end at or below 2^32, of which a text is its ASCII codes with no terminator. `stb`
rejects a byte above 255. (What a `crcb` of a number above 255 does is the model's choice, log entry 13,
and nothing is stated of it. That an `stbs` of no bytes is accepted, as no transaction, is the model's choice
too, log entry 14, DESIGN CHOICE: R79 writes at least one byte.) -/
def Obligations.AssembledLinesDecodeToTheirInstructions : Prop :=
  ([RegName.ctrl, .status, .addr, .len, .acc, .result, .dataIn, .r7].map
      (fun r => (assemble (.rd r)).map (List.map decode)) =
    [.rdCtrl, .rdStatus, .rdAddr, .rdLen, .rdAcc, .rdResult, .rdDataIn, .rdR7].map
      (fun i => some [i])) ∧
  (∀ d : Word,
    (assemble (.wr .ctrl d.toNat)).map (List.map decode) = some [decode ⟨0b01#2, 0b000#3, 0, d⟩] ∧
    (assemble (.wr .status d.toNat)).map (List.map decode) = some [.wrStatus d] ∧
    (assemble (.wr .addr d.toNat)).map (List.map decode) = some [.wrAddr d] ∧
    (assemble (.wr .len d.toNat)).map (List.map decode) = some [.wrLen d] ∧
    (assemble (.wr .acc d.toNat)).map (List.map decode) = some [.wrAcc d] ∧
    (assemble (.wr .result d.toNat)).map (List.map decode) = some [.wrResult d] ∧
    (assemble (.wr .dataIn d.toNat)).map (List.map decode) = some [.wrDataIn d] ∧
    (assemble (.wr .r7 d.toNat)).map (List.map decode) = some [.wrR7 d]) ∧
  ([AsmLine.nop, .crcInit, .crcSpan, .crcCompute, .dfuAppend, .clrerr].map
      (fun l => (assemble l).map (List.map decode)) =
    [.nop, .crcInit, .crcSpan, .crcCompute, .dfuAppend, .wrStatus 3].map (fun i => some [i])) ∧
  (∀ a n : Word,
    (assemble (.span a.toNat n.toNat)).map (List.map decode) = some [.wrAddr a, .wrLen n, .crcSpan] ∧
    (assemble (.crc32 a.toNat n.toNat)).map (List.map decode) = some [.wrAddr a, .wrLen n, .crcCompute] ∧
    (assemble (.dfu a.toNat n.toNat)).map (List.map decode) = some [.wrAddr a, .wrLen n, .dfuAppend] ∧
    (assemble (.ldb a.toNat)).map (List.map decode) = some [.bufr a]) ∧
  (∀ (a : Word) (b : Byte),
    (assemble (.stb a.toNat b.toNat)).map (List.map decode) = some [.bufw a (b.setWidth 32)] ∧
    (assemble (.crcb b.toNat)).map (List.map decode) = some [.wrDataIn (b.setWidth 32)]) ∧
  (∀ a b : Nat, 255 < b → assemble (.stb a b) = none) ∧
  (∀ (a : Nat) (bs : List Byte), a + bs.length ≤ 2 ^ 32 →
    (assemble (.stbs a (bs.map BitVec.toNat))).map (List.map decode) =
      some ((bs.zipIdx a).map fun p => .bufw (BitVec.ofNat 32 p.2) (p.1.setWidth 32))) ∧
  (∀ (a : Nat) (text : List Char), (∀ c ∈ text, c.toNat < 128) →
    assemble (.stbsText a text) = assemble (.stbs a (text.map Char.toNat)))

/-! ### The step -/

/-- When the host's next event is a transaction, the step is the meaning of the instruction it decodes to,
on the state whose queue has moved past it. The queue and the way a word is placed in it are the model's
choice (log entry 2). -/
def Obligations.StepRunsDecodedTransaction : Prop :=
  (∀ (s : State) (t : Transaction) (rest : List HostEvent) (i : Instr),
    s.pending = .transaction t :: rest → decode t = i →
      step s = exec i { s with pending := rest }) ∧
  (∀ (s : State) (nbits w : Nat) (i : Instr),
    decodeTableWord nbits w = some i → step (s.withFetchWord nbits w) = exec i s)

/-- With nothing pending the block waits: the step changes nothing (the model's choice, log entry 3). -/
def Obligations.StepWithNothingPendingWaits : Prop :=
  ∀ s : State, s.pending = [] → step s = .next s

/-- A reset event leaves the values of 70_reset_and_hazards.md R230, every buffer byte unwritten, RESULT
reading 0, and the block's size and the host's later events as they were (the last two are the model's
choice, log entry 7). -/
def Obligations.ResetEventRestoresResetValues : Prop :=
  ∀ (s : State) (rest : List HostEvent), s.pending = .reset :: rest →
    ∃ t, step s = .next t ∧
      t.addr = 0x00000000 ∧ t.len = 0x00000000 ∧ t.acc = 0xFFFFFFFF ∧ t.statusWord = 0x00000000 ∧
      t.resultWord = 0x00000000 ∧ (∀ a, t.buf.read a = none) ∧
      t.bufSize = s.bufSize ∧ t.response = none ∧ t.pending = rest

/-- The values right after reset (R22, R23, R24, R26, R230), for every buffer size: registers, STATUS,
RESULT and the buffer. That nothing is returned or pending yet is the model's choice (log entries 2
and 4). -/
def Obligations.ResetStateHoldsResetValues : Prop :=
  ∀ n : Nat,
    (State.resetOf n).addr = 0x00000000 ∧ (State.resetOf n).len = 0x00000000 ∧
    (State.resetOf n).acc = 0xFFFFFFFF ∧ (State.resetOf n).statusWord = 0x00000000 ∧
    (State.resetOf n).resultWord = 0x00000000 ∧ (∀ a, (State.resetOf n).buf.read a = none) ∧
    (State.resetOf n).bufSize = n ∧ (State.resetOf n).response = none ∧
    (State.resetOf n).pending = []

/-- A step takes the first event off a queue that holds one, and leaves the rest in order (20_memory.md R61);
an idle step, with an empty queue, takes none and leaves the state as it is; no step changes BUF_SIZE
(00_scope.md R5). The queue, the idle step and what a reset event keeps are the model's choice (log entries
2, 3 and 7, DESIGN CHOICE). -/
def Obligations.StepConsumesOneEventAndKeepsBufSize : Prop :=
  (∀ (s t : State) (e : HostEvent) (rest : List HostEvent),
    s.pending = e :: rest → step s = .next t → t.pending = rest) ∧
  (∀ s t : State, s.pending = [] → step s = .next t → t = s) ∧
  (∀ s t : State, step s = .next t → t.bufSize = s.bufSize)

/-- A step has two outcomes (R4): a next state, or the model fault Unwritten(a) of a buffer byte in range
that nothing has written, met by BUFR, CRC_SPAN, CRC_COMPUTE or DFU_APPEND. It is never a refusal. -/
def Obligations.StepCompletesOrReadsAnUnwrittenByte : Prop :=
  ∀ s : State,
    (∃ t, step s = .next t) ∨
    (∃ a, step s = .fault (.unwritten a) ∧ a < s.bufSize ∧ s.buf.read a = none ∧
      ((∃ w, s.nextIs (.bufr w)) ∨ s.nextIs .crcSpan ∨ s.nextIs .crcCompute ∨ s.nextIs .dfuAppend))

/-- No instruction is refused, in any state and with any operand (R4, R209). -/
def Obligations.NoInstructionIsRefused : Prop :=
  ∀ (i : Instr) (s : State) (r : Refusal), exec i s ≠ .refused r

/-! ### The invariant -/

/-- The reset state of every legal buffer size meets the invariant, and so does State.reset (whose size is
the model's choice, log entry 1). -/
def Obligations.ResetStateMeetsInvariant : Prop :=
  (∀ n, Config.legalBufSize n → (State.resetOf n).Inv) ∧ State.reset.Inv

/-- Every step keeps the invariant: the buffer in its canonical form, no byte of it outside 0 to
BUF_SIZE-1 (10_state.md R30), the size legal (00_scope.md R5). -/
def Obligations.StepKeepsInvariant : Prop :=
  ∀ s t : State, s.Inv → step s = .next t → t.Inv

/-! ### Registers -/

/-- R101 to R108: the eight register reads, each with its encoding (any A and D), its read data and
nothing else changed. -/
def Obligations.RegisterReadsReturnTheirValue : Prop :=
  ∀ (s : State) (a d : Word),
    (decode ⟨0b00#2, 0b000#3, a, d⟩ = .rdCtrl ∧
      exec .rdCtrl s = .next { s with response := some 0x00000000 }) ∧
    (decode ⟨0b00#2, 0b001#3, a, d⟩ = .rdStatus ∧
      exec .rdStatus s = .next { s with
        response := some ((0#30 ++ BitVec.ofBool s.errRange) ++ BitVec.ofBool s.errCmd) }) ∧
    (decode ⟨0b00#2, 0b010#3, a, d⟩ = .rdAddr ∧
      exec .rdAddr s = .next { s with response := some s.addr }) ∧
    (decode ⟨0b00#2, 0b011#3, a, d⟩ = .rdLen ∧
      exec .rdLen s = .next { s with response := some s.len }) ∧
    (decode ⟨0b00#2, 0b100#3, a, d⟩ = .rdAcc ∧
      exec .rdAcc s = .next { s with response := some s.acc }) ∧
    (decode ⟨0b00#2, 0b101#3, a, d⟩ = .rdResult ∧
      exec .rdResult s = .next { s with response := some (s.acc ^^^ 0xFFFFFFFF) }) ∧
    (decode ⟨0b00#2, 0b110#3, a, d⟩ = .rdDataIn ∧
      exec .rdDataIn s = .next { s with response := some 0x00000000 }) ∧
    (decode ⟨0b00#2, 0b111#3, a, d⟩ = .rdR7 ∧
      exec .rdR7 s = .next { s with response := some 0x00000000 })

/-- R111 to R115: WR_ADDR, WR_LEN and WR_ACC store all of D with no range check, WR_RESULT and WR_R7 change
nothing; and a WR_ACC of 0xFFFFFFFF is a CRC_INIT. -/
def Obligations.RegisterWritesStoreOrAreIgnored : Prop :=
  (∀ (s : State) (a d : Word),
    (decode ⟨0b01#2, 0b010#3, a, d⟩ = .wrAddr d ∧
      exec (.wrAddr d) s = .next { s with addr := d, response := none }) ∧
    (decode ⟨0b01#2, 0b011#3, a, d⟩ = .wrLen d ∧
      exec (.wrLen d) s = .next { s with len := d, response := none }) ∧
    (decode ⟨0b01#2, 0b100#3, a, d⟩ = .wrAcc d ∧
      exec (.wrAcc d) s = .next { s with acc := d, response := none }) ∧
    (decode ⟨0b01#2, 0b101#3, a, d⟩ = .wrResult d ∧
      exec (.wrResult d) s = .next { s with response := none }) ∧
    (decode ⟨0b01#2, 0b111#3, a, d⟩ = .wrR7 d ∧
      exec (.wrR7 d) s = .next { s with response := none })) ∧
  (∀ s : State, exec (.wrAcc 0xFFFFFFFF) s = exec .crcInit s)

/-- R110: WR_STATUS clears exactly the flags whose bit of D is 1, ignores D[31:2], and changes nothing
else. -/
def Obligations.WriteStatusClearsSelectedFlags : Prop :=
  ∀ (s : State) (a d : Word),
    decode ⟨0b01#2, 0b001#3, a, d⟩ = .wrStatus d ∧
    exec (.wrStatus d) s = .next { s with
      errCmd := s.errCmd && !d.getLsbD 0, errRange := s.errRange && !d.getLsbD 1, response := none }

/-- A flag once set stays set through every step but a WR_STATUS with its bit 1 or a reset event
(10_state.md R26, 60_exceptions.md R207). -/
def Obligations.FlagsAreSticky : Prop :=
  ∀ s t : State, step s = .next t →
    (s.errCmd = true → t.errCmd = false →
      s.nextIsReset ∨ ∃ d, s.nextIs (.wrStatus d) ∧ d.getLsbD 0 = true) ∧
    (s.errRange = true → t.errRange = false →
      s.nextIsReset ∨ ∃ d, s.nextIs (.wrStatus d) ∧ d.getLsbD 1 = true)

/-- A set flag blocks nothing (R26, R207): whatever the flags are, an instruction completes in the same way
and leaves the same registers, buffer and read data, but for the read data of RD_STATUS itself. -/
def Obligations.FlagsBlockNothing : Prop :=
  ∀ (i : Instr) (s t : State) (c r : Bool), exec i s = .next t →
    ∃ t', exec i { s with errCmd := c, errRange := r } = .next t' ∧
      t'.addr = t.addr ∧ t'.len = t.len ∧ t'.acc = t.acc ∧ t'.buf = t.buf ∧
      (i ≠ .rdStatus → t'.response = t.response)

/-- Who writes each register and the buffer (10_state.md R22, R23, R24, R30): ADDR only WR_ADDR, LEN only
WR_LEN and DFU_APPEND, ACC only WR_ACC, WR_DATA_IN, CRC_INIT, CRC_SPAN, CRC_COMPUTE and DFU_APPEND, the
buffer only BUFW and DFU_APPEND, apart from a reset event. -/
def Obligations.OnlyNamedTransactionsWriteEachRegister : Prop :=
  ∀ s t : State, step s = .next t →
    (t.addr ≠ s.addr → s.nextIsReset ∨ ∃ d, s.nextIs (.wrAddr d)) ∧
    (t.len ≠ s.len → s.nextIsReset ∨ (∃ d, s.nextIs (.wrLen d)) ∨ s.nextIs .dfuAppend) ∧
    (t.acc ≠ s.acc → s.nextIsReset ∨ (∃ d, s.nextIs (.wrAcc d)) ∨ (∃ d, s.nextIs (.wrDataIn d)) ∨
      s.nextIs .crcInit ∨ s.nextIs .crcSpan ∨ s.nextIs .crcCompute ∨ s.nextIs .dfuAppend) ∧
    (t.buf ≠ s.buf → s.nextIsReset ∨ (∃ a d, s.nextIs (.bufw a d)) ∨ s.nextIs .dfuAppend)

/-- A read transaction returns one 32-bit value and every other transaction returns nothing (R70, R100). -/
def Obligations.ExactlyTheReadsReturnData : Prop :=
  ∀ (i : Instr) (s t : State), exec i s = .next t →
    (t.response ≠ none ↔ isRegisterRead i ∨ ∃ a, i = .bufr a)

/-- Side effects and repetition (20_memory.md R59): a register read changes nothing but the read data; a
register read, a BUFR in range, and a register write other than WR_CTRL and WR_DATA_IN answer the same
state when they are repeated. -/
def Obligations.RepeatedAccessesAreIdempotent : Prop :=
  ∀ (i : Instr) (s t : State), exec i s = .next t →
    (isRegisterRead i → t = { s with response := t.response } ∧ exec i t = .next t) ∧
    (isPlainRegisterWrite i → exec i t = .next t) ∧
    (∀ a, i = .bufr a → a.toNat < s.bufSize →
      t = { s with response := t.response } ∧ exec i t = .next t)

/-! ### Errors -/

/-- R116, R201, R202: ErrCmd is raised by exactly the reserved command words and ErrRange under exactly the
five conditions of the table; raising one changes that flag and nothing else (a BUFR also returns 0), a
flag that rises was raised, and no instruction meets both conditions. -/
def Obligations.ErrorsAreRaisedExactlyWhenStated : Prop :=
  ∀ (i : Instr) (s : State),
    (reservedWord i → exec i s = .next { s with errCmd := true, response := none }) ∧
    (rangeErrorCondition i s → (∀ a, i ≠ .bufr a) →
      exec i s = .next { s with errRange := true, response := none }) ∧
    (∀ a, i = .bufr a → s.bufSize ≤ a.toNat →
      exec i s = .next { s with errRange := true, response := some 0x00000000 }) ∧
    (∀ t, exec i s = .next t → s.errCmd = false → t.errCmd = true → reservedWord i) ∧
    (∀ t, exec i s = .next t → s.errRange = false → t.errRange = true → rangeErrorCondition i s) ∧
    ¬ (reservedWord i ∧ rangeErrorCondition i s)

/-! ### Buffer accesses -/

/-- R117: BUFR with its encoding (any X and D). Out of range it sets ERR_RANGE and returns 0; in range it
returns the byte zero-extended; a byte never written is the model fault. -/
def Obligations.BufferReadReturnsTheByte : Prop :=
  ∀ (s : State) (x : BitVec 3) (a d : Word),
    decode ⟨0b10#2, x, a, d⟩ = .bufr a ∧
    (s.bufSize ≤ a.toNat →
      exec (.bufr a) s = .next { s with errRange := true, response := some 0x00000000 }) ∧
    (∀ b : Byte, a.toNat < s.bufSize → s.buf.read a.toNat = some b →
      exec (.bufr a) s = .next { s with response := some (b.setWidth 32) }) ∧
    (a.toNat < s.bufSize → s.buf.read a.toNat = none →
      exec (.bufr a) s = .fault (.unwritten a.toNat))

/-- R118: BUFW with its encoding (any X). Out of range it sets ERR_RANGE and writes nothing; in range it
stores D[7:0] at A, marks it written, and leaves every other byte and all else. -/
def Obligations.BufferWriteStoresTheByte : Prop :=
  ∀ (s : State) (x : BitVec 3) (a d : Word),
    decode ⟨0b11#2, x, a, d⟩ = .bufw a d ∧
    (s.bufSize ≤ a.toNat →
      exec (.bufw a d) s = .next { s with errRange := true, response := none }) ∧
    (a.toNat < s.bufSize → ∃ m : Memory,
      exec (.bufw a d) s = .next { s with buf := m, response := none } ∧
      m.read a.toNat = some (d.extractLsb' 0 8) ∧
      ∀ a' : Nat, a' ≠ a.toNat → m.read a' = s.buf.read a')

/-- Each access sees the latest earlier write, with nothing needed in between (20_memory.md R61, R64). After a
BUFW to byte j of the span, written before or not, a BUFR of the address returns the byte, CRC_SPAN and
CRC_COMPUTE fold the span with it, and DFU_APPEND, where its suffix fits, appends the suffix of the image with
it. After a DFU_APPEND a BUFR sees each of the 16 bytes it wrote. -/
def Obligations.CommandsSeeTheLatestBufferWrite : Prop :=
  (∀ (s t : State) (bs : List Byte) (j : Nat) (a d : Word),
    s.addr.toNat + s.len.toNat ≤ s.bufSize → bs.length = s.len.toNat → j < bs.length →
    (∀ i, i < bs.length → i ≠ j → s.buf.read (s.addr.toNat + i) = bs[i]?) →
    bs[j]? = some (d.extractLsb' 0 8) →
    a.toNat = s.addr.toNat + j → exec (.bufw a d) s = .next t →
      exec (.bufr a) t = .next { t with response := some ((d.extractLsb' 0 8).setWidth 32) } ∧
      exec .crcSpan t = .next { t with acc := crcFold s.acc bs, response := none } ∧
      exec .crcCompute t = .next { t with acc := crcFold 0xFFFFFFFF bs, response := none } ∧
      (s.addr.toNat + s.len.toNat + 16 ≤ s.bufSize → ∃ u, exec .dfuAppend t = .next u ∧
        u.resultWord = dwCrc bs ∧ u.holdsBytes s.addr.toNat (bs ++ suffixOf bs))) ∧
  (∀ (s t : State) (image : List Byte) (k : Nat) (a : Word),
    s.imageReady image → exec .dfuAppend s = .next t → k < 16 →
    a.toNat = s.addr.toNat + s.len.toNat + k →
      ∃ b, (suffixOf image)[k]? = some b ∧
        exec (.bufr a) t = .next { t with response := some (b.setWidth 32) })

/-- A buffer byte once written stays written until a reset event (10_state.md R31). -/
def Obligations.WrittenMarksLastUntilReset : Prop :=
  ∀ (s t : State) (a : Nat), step s = .next t → s.buf.read a ≠ none → t.buf.read a = none →
    s.nextIsReset

/-- A little-endian value written with MemWrite(a, n, v) is read back by MemRead(a, n), modulo its width,
and byte i of it is v[8*i+7 : 8*i] (00_scope.md R10, 20_memory.md R53). -/
def Obligations.LittleEndianWriteReadsBack : Prop :=
  ∀ (s : State) (a n v : Nat),
    (s.memWriteN a n v).memReadN a n = .ok (v % 2 ^ (8 * n)) ∧
    (∀ i, i < n → (s.memWriteN a n v).buf.read (a + i) = some (BitVec.ofNat 8 (v / 2 ^ (8 * i)))) ∧
    (∀ a', a' < a ∨ a + n ≤ a' → (s.memWriteN a n v).buf.read a' = s.buf.read a')

/-! ### Commands -/

/-- R119, R146: NOP changes nothing; CRC_INIT sets ACC to 0xFFFFFFFF, after which RESULT reads 0, and is the
same done twice. -/
def Obligations.NopAndCrcInitEffects : Prop :=
  ∀ (s : State) (a : Word),
    (decode ⟨0b01#2, 0b000#3, a, 0x00000000⟩ = .nop ∧
      exec .nop s = .next { s with response := none }) ∧
    (decode ⟨0b01#2, 0b000#3, a, 0x00000001⟩ = .crcInit ∧
      exec .crcInit s = .next { s with acc := 0xFFFFFFFF, response := none } ∧
      (∀ t, exec .crcInit s = .next t → t.resultWord = 0x00000000 ∧ exec .crcInit t = .next t))

/-- R120: every command word other than 0 to 4 sets ERR_CMD and does nothing else, in each of the four
reserved rows; no range is looked at. -/
def Obligations.ReservedCommandWordsRaiseErrCmd : Prop :=
  ∀ s : State,
    (∀ a d : Word, 4 < d.toNat →
      exec (decode ⟨0b01#2, 0b000#3, a, d⟩) s = .next { s with errCmd := true, response := none }) ∧
    exec .cmdRsvd5 s = .next { s with errCmd := true, response := none } ∧
    exec .cmdRsvd6 s = .next { s with errCmd := true, response := none } ∧
    exec .cmdRsvd7 s = .next { s with errCmd := true, response := none } ∧
    (∀ d : Word, exec (.cmdRsvdOther d) s = .next { s with errCmd := true, response := none })

/-- R109: a WR_CTRL runs the command its word selects, with the outcome of the row its transaction decodes
to; where the command completes with an effect of its own, so does the WR_CTRL. -/
def Obligations.WriteCtrlRunsTheSelectedCommand : Prop :=
  ∀ (s : State) (a : Word),
    (∀ d : Word, exec (.wrCtrl d) s = exec (decode ⟨0b01#2, 0b000#3, a, d⟩) s) ∧
    exec (.wrCtrl 0x00000000) s = .next { s with response := none } ∧
    exec (.wrCtrl 0x00000001) s = .next { s with acc := 0xFFFFFFFF, response := none } ∧
    (∀ bs, s.spanHolds bs →
      exec (.wrCtrl 0x00000002) s = .next { s with acc := crcFold s.acc bs, response := none } ∧
      exec (.wrCtrl 0x00000003) s = .next { s with acc := crcFold 0xFFFFFFFF bs, response := none }) ∧
    exec (.wrCtrl 0x00000004) s = exec .dfuAppend s ∧
    (∀ d : Word, 4 < d.toNat → exec (.wrCtrl d) s = .next { s with errCmd := true, response := none })

/-- R147: WR_DATA_IN, with its encoding, feeds D[7:0] to whatever ACC holds, by the eight shifts of step8,
and changes nothing else. -/
def Obligations.DataInFeedsOneByte : Prop :=
  ∀ (s : State) (a d : Word),
    decode ⟨0b01#2, 0b110#3, a, d⟩ = .wrDataIn d ∧
    exec (.wrDataIn d) s =
      .next { s with acc := step8 s.acc (d.extractLsb' 0 8), response := none }

/-- R148: CRC_SPAN folds the bytes of the span from the running ACC and changes nothing else; a span past
the end raises ErrRange; the first byte never written is the model fault; an empty span inside the
buffer leaves ACC. -/
def Obligations.CrcSpanFoldsTheSpan : Prop :=
  ∀ s : State,
    (∀ a, decode ⟨0b01#2, 0b000#3, a, 0x00000002⟩ = .crcSpan) ∧
    (s.bufSize < s.addr.toNat + s.len.toNat →
      exec .crcSpan s = .next { s with errRange := true, response := none }) ∧
    (∀ bs, s.spanHolds bs →
      exec .crcSpan s = .next { s with acc := crcFold s.acc bs, response := none }) ∧
    (∀ j, s.addr.toNat + s.len.toNat ≤ s.bufSize → j < s.len.toNat →
      s.buf.read (s.addr.toNat + j) = none →
      (∀ i, i < j → s.buf.read (s.addr.toNat + i) ≠ none) →
      exec .crcSpan s = .fault (.unwritten (s.addr.toNat + j))) ∧
    (s.len = 0 → s.addr.toNat ≤ s.bufSize → exec .crcSpan s = .next { s with response := none })

/-- R149: CRC_COMPUTE folds the bytes of the span from 0xFFFFFFFF, so that RESULT reads their CRC-32, and
changes nothing else; a span past the end raises ErrRange with ACC as it was; the first byte never
written is the model fault. -/
def Obligations.CrcComputeYieldsCrc32 : Prop :=
  ∀ s : State,
    (∀ a, decode ⟨0b01#2, 0b000#3, a, 0x00000003⟩ = .crcCompute) ∧
    (s.bufSize < s.addr.toNat + s.len.toNat →
      exec .crcCompute s = .next { s with errRange := true, response := none }) ∧
    (∀ bs, s.spanHolds bs → ∃ t,
      exec .crcCompute s = .next t ∧
      t = { s with acc := crcFold 0xFFFFFFFF bs, response := none } ∧
      t.resultWord = crc32 bs) ∧
    (∀ j, s.addr.toNat + s.len.toNat ≤ s.bufSize → j < s.len.toNat →
      s.buf.read (s.addr.toNat + j) = none →
      (∀ i, i < j → s.buf.read (s.addr.toNat + i) ≠ none) →
      exec .crcCompute s = .fault (.unwritten (s.addr.toNat + j)))

/-- The engine is deterministic (R150): in any two states, whatever their ADDR, size, flags and history, the
ACC that CRC_COMPUTE leaves depends on the bytes of the span alone, the ACC that CRC_SPAN leaves on the
previous ACC and those bytes, and the ACC that WR_DATA_IN leaves on the previous ACC and D[7:0], whatever
the spans and the buffers hold. -/
def Obligations.CrcDependsOnlyOnTheBytes : Prop :=
  (∀ (s s' : State) (bs : List Byte), s.spanHolds bs → s'.spanHolds bs →
    (∃ t t', exec .crcCompute s = .next t ∧ exec .crcCompute s' = .next t' ∧ t.acc = t'.acc) ∧
    (s.acc = s'.acc →
      ∃ t t', exec .crcSpan s = .next t ∧ exec .crcSpan s' = .next t' ∧ t.acc = t'.acc)) ∧
  (∀ (s s' : State) (d d' : Word), s.acc = s'.acc → d.extractLsb' 0 8 = d'.extractLsb' 0 8 →
    ∃ t t', exec (.wrDataIn d) s = .next t ∧ exec (.wrDataIn d') s' = .next t' ∧ t.acc = t'.acc)

/-! ### The CRC function -/

/-- R152: the CRC-32 of the nine ASCII bytes "123456789" is 0xCBF43926. -/
def Obligations.CheckValueOfTheNineDigits : Prop :=
  crc32 [0x31, 0x32, 0x33, 0x34, 0x35, 0x36, 0x37, 0x38, 0x39] = 0xCBF43926

/-- The printed table T is step8(0, i) for i in 0 .. 255 (R145, 41_crc32_engine.md section 4). -/
def Obligations.TableEntriesAreStepsFromZero : Prop :=
  crcTable.length = 256 ∧ ∀ i : Byte, crcTable.getD i.toNat 0 = step8 0 i

/-- The tabled form with the printed table equals the bit-serial step8 for every accumulator and byte
(R145). -/
def Obligations.TabledStepEqualsBitSerialStep : Prop :=
  ∀ (c : Word) (b : Byte), step8Tabled c b = step8 c b

/-- Chaining on the machine (R151): a CRC_SPAN over n bytes and then one over the m bytes after them leave
the ACC that one CRC_SPAN over the n+m bytes leaves, when LEN can hold n+m, the bytes are written and
BUF_SIZE is legal (R5). -/
def Obligations.ChainedSpansEqualOneSpan : Prop :=
  ∀ (s : State) (a n m : Word) (bs : List Byte),
    Config.legalBufSize s.bufSize → n.toNat + m.toNat < 2 ^ 32 →
    State.spanHolds { s with addr := a, len := n + m } bs →
    ∃ t u v,
      exec .crcSpan { s with addr := a, len := n } = .next t ∧
      exec .crcSpan { t with addr := a + n, len := m } = .next u ∧
      exec .crcSpan { s with addr := a, len := n + m } = .next v ∧ u.acc = v.acc

/-- Streaming and computing agree (R143, R151): CRC_INIT, then one WR_DATA_IN for each byte of any
sequence, then RD_RESULT returns the CRC-32 of the sequence, and so does CRC_COMPUTE over a span that
holds it. -/
def Obligations.StreamedBytesYieldCrc32 : Prop :=
  ∀ (s : State) (bs : List Byte),
    (∃ t, execAll (.crcInit :: bs.map (fun b => .wrDataIn (b.setWidth 32))) s = .next t ∧
      exec .rdResult t = .next { t with response := some (crc32 bs) }) ∧
    (s.spanHolds bs → ∃ t, exec .crcCompute s = .next t ∧
      exec .rdResult t = .next { t with response := some (crc32 bs) })

/-! ### The suffix formatter -/

/-- R170 to R176, R178, R179: DFU_APPEND. With the image written and room for 16 bytes, it leaves the image
and every byte outside the 16 alone, writes the 12 fixed bytes and then dwCRC = crc32(image ++ FIXED)
least significant byte first right after the image, leaves the raw accumulator of image and FIXED in ACC
and the output length in LEN, and changes nothing else. Without room it raises ErrRange; an image byte
never written is the model fault. -/
def Obligations.DfuAppendWritesTheSuffix : Prop :=
  ∀ s : State,
    (∀ a, decode ⟨0b01#2, 0b000#3, a, 0x00000004⟩ = .dfuAppend) ∧
    (∀ image, s.imageReady image → ∃ (m : Memory) (c crc : Word),
      c = crcFold 0xFFFFFFFF (image ++
        [0xFF, 0xFF, 0xFF, 0xFF, 0xFF, 0xFF, 0x00, 0x01, 0x55, 0x46, 0x44, 0x10]) ∧
      crc = c ^^^ 0xFFFFFFFF ∧
      exec .dfuAppend s = .next { s with
        buf := m, acc := c, len := BitVec.ofNat 32 (s.len.toNat + 16), response := none } ∧
      (∀ j, j < 16 → m.read (s.addr.toNat + s.len.toNat + j) =
        ([0xFF, 0xFF, 0xFF, 0xFF, 0xFF, 0xFF, 0x00, 0x01, 0x55, 0x46, 0x44, 0x10,
          crc.extractLsb' 0 8, crc.extractLsb' 8 8, crc.extractLsb' 16 8, crc.extractLsb' 24 8] :
          List Byte)[j]?) ∧
      (∀ a, a < s.addr.toNat + s.len.toNat ∨ s.addr.toNat + s.len.toNat + 16 ≤ a →
        m.read a = s.buf.read a)) ∧
    (s.bufSize < s.addr.toNat + s.len.toNat + 16 →
      exec .dfuAppend s = .next { s with errRange := true, response := none }) ∧
    (∀ j, s.addr.toNat + s.len.toNat + 16 ≤ s.bufSize → j < s.len.toNat →
      s.buf.read (s.addr.toNat + j) = none →
      (∀ i, i < j → s.buf.read (s.addr.toNat + i) ≠ none) →
      exec .dfuAppend s = .fault (.unwritten (s.addr.toNat + j)))

/-- After a DFU_APPEND whose new LEN did not wrap, the span ADDR, LEN is the output file: the image and its
16-byte suffix, 16 bytes longer, and CRC_COMPUTE over it is in range (R180). -/
def Obligations.OutputFileIsImageThenSuffix : Prop :=
  ∀ (s : State) (image : List Byte), s.imageReady image → s.len.toNat + 16 < 2 ^ 32 →
    ∃ t, exec .dfuAppend s = .next t ∧ t.spanHolds (image ++ suffixOf image) ∧
      t.len.toNat = s.len.toNat + 16 ∧ t.resultWord = dwCrc image

/-- An empty image is legal and needs exactly 16 bytes of room (R181): with ADDR + 16 <= BUF_SIZE the suffix
stands at ADDR with dwCRC 0x77840E1E, ACC is 0x887BF1E1 and LEN is 16; with less room ErrRange is raised and
nothing else changes. -/
def Obligations.EmptyImageSuffix : Prop :=
  ∀ s : State, s.len = 0 →
    (s.addr.toNat + 16 ≤ s.bufSize →
      ∃ t, exec .dfuAppend s = .next t ∧ t.acc = 0x887BF1E1 ∧ t.len = 16 ∧
        t.holdsBytes s.addr.toNat
          [0xFF, 0xFF, 0xFF, 0xFF, 0xFF, 0xFF, 0x00, 0x01, 0x55, 0x46, 0x44, 0x10,
            0x1E, 0x0E, 0x84, 0x77]) ∧
    (s.bufSize < s.addr.toNat + 16 →
      exec .dfuAppend s = .next { s with errRange := true, response := none })

/-- A second DFU_APPEND takes the first output as its image and appends another suffix after it (R182), when
LEN did not wrap and there is room. -/
def Obligations.SecondAppendExtendsTheOutput : Prop :=
  ∀ (s t : State) (image : List Byte), s.imageReady image → s.len.toNat + 16 < 2 ^ 32 →
    s.addr.toNat + s.len.toNat + 32 ≤ s.bufSize → exec .dfuAppend s = .next t →
    ∃ u, exec .dfuAppend t = .next u ∧ u.addr = s.addr ∧
      u.holdsBytes s.addr.toNat
        (image ++ suffixOf image ++ suffixOf (image ++ suffixOf image)) ∧
      u.len = BitVec.ofNat 32 (s.len.toNat + 32)

/-- The check property (R183): the CRC-32 of every image and its suffix is 0x2144DF1C, and CRC_COMPUTE over the
output of a DFU_APPEND leaves it in RESULT. Where the new LEN wrapped, which with a legal BUF_SIZE happens only
at ADDR = 0 and LEN + 16 = 2^32 (R181), LEN is 0 and CRC_COMPUTE is over no bytes: RESULT reads 0. -/
def Obligations.OutputCrcIsTheResidue : Prop :=
  (∀ image : List Byte, crc32 (image ++ suffixOf image) = 0x2144DF1C) ∧
  (∀ (s t : State) (image : List Byte), s.imageReady image → exec .dfuAppend s = .next t →
    (s.len.toNat + 16 < 2 ^ 32 →
      ∃ u, exec .crcCompute t = .next u ∧ u.resultWord = 0x2144DF1C) ∧
    (Config.legalBufSize s.bufSize → 2 ^ 32 ≤ s.len.toNat + 16 → s.addr = 0 ∧ t.len = 0 ∧
      ∃ u, exec .crcCompute t = .next u ∧ u.resultWord = 0x00000000))
end

