-- ==== Sys2Proof/Laws/Crc.lean ====
section
/-! SUPPORT. The laws of the CRC function: its shifts are linear over exclusive or, and a fold over a
concatenation is two folds. -/

namespace Sys2Proof.Machine

@[simp] theorem crcFold_nil (c : Word) : crcFold c [] = c := rfl

@[simp] theorem crcFold_cons (c : Word) (b : Byte) (bs : List Byte) :
    crcFold c (b :: bs) = crcFold (step8 c b) bs := rfl

theorem crcFold_append (c : Word) (xs ys : List Byte) :
    crcFold c (xs ++ ys) = crcFold (crcFold c xs) ys := by
  induction xs generalizing c with
  | nil => rfl
  | cons x xs ih => exact ih _

/-- One shift is linear over exclusive or. -/
theorem crcShift_xor (x y : Word) : crcShift (x ^^^ y) = crcShift x ^^^ crcShift y := by
  unfold crcShift
  rw [BitVec.getLsbD_xor, BitVec.ushiftRight_xor_distrib]
  have hp : ∀ a b : Word, a ^^^ b ^^^ crcPoly = a ^^^ (b ^^^ crcPoly) := fun a b => BitVec.xor_assoc a b _
  cases hx : x.getLsbD 0 <;> cases hy : y.getLsbD 0 <;> simp
  · exact hp _ _
  · rw [BitVec.xor_assoc, BitVec.xor_assoc, BitVec.xor_comm (y >>> 1)]
  · rw [BitVec.xor_assoc (x >>> 1), ← BitVec.xor_assoc crcPoly, BitVec.xor_comm crcPoly (y >>> 1),
      BitVec.xor_assoc (y >>> 1), BitVec.xor_self, BitVec.xor_zero]

theorem crcShifts_xor (n : Nat) (x y : Word) :
    crcShifts n (x ^^^ y) = crcShifts n x ^^^ crcShifts n y := by
  induction n generalizing x y with
  | zero => rfl
  | succ n ih => rw [crcShifts, crcShift_xor, ih]; rfl

theorem crcShifts_add (m n : Nat) (x : Word) : crcShifts (m + n) x = crcShifts n (crcShifts m x) := by
  induction m generalizing x with
  | zero => simp [crcShifts]
  | succ m ih => rw [Nat.succ_add, crcShifts, ih]; rfl

@[simp] theorem leBytes_length (n v : Nat) : (leBytes n v).length = n := by
  induction n generalizing v with
  | zero => rfl
  | succ n ih => simp [leBytes, ih]

@[simp] theorem fixedSuffix_length : fixedSuffix.length = 12 := by decide

@[simp] theorem suffixOf_length (image : List Byte) : (suffixOf image).length = 16 := by
  simp [suffixOf]

end Sys2Proof.Machine
end

