-- ==== Sys2Proof/Laws/State.lean ====
section
/-! SUPPORT. One lemma for each field and each update of a state. -/

namespace Sys2Proof.Machine

@[simp] theorem State.returns_addr (s : State) (v : Word) : (s.returns v).addr = s.addr := rfl
@[simp] theorem State.returns_len (s : State) (v : Word) : (s.returns v).len = s.len := rfl
@[simp] theorem State.returns_acc (s : State) (v : Word) : (s.returns v).acc = s.acc := rfl
@[simp] theorem State.returns_errCmd (s : State) (v : Word) : (s.returns v).errCmd = s.errCmd := rfl
@[simp] theorem State.returns_errRange (s : State) (v : Word) : (s.returns v).errRange = s.errRange := rfl
@[simp] theorem State.returns_buf (s : State) (v : Word) : (s.returns v).buf = s.buf := rfl
@[simp] theorem State.returns_bufSize (s : State) (v : Word) : (s.returns v).bufSize = s.bufSize := rfl
@[simp] theorem State.returns_response (s : State) (v : Word) : (s.returns v).response = (some v) := rfl
@[simp] theorem State.returns_pending (s : State) (v : Word) : (s.returns v).pending = s.pending := rfl

@[simp] theorem State.returnsNothing_addr (s : State) : (s.returnsNothing).addr = s.addr := rfl
@[simp] theorem State.returnsNothing_len (s : State) : (s.returnsNothing).len = s.len := rfl
@[simp] theorem State.returnsNothing_acc (s : State) : (s.returnsNothing).acc = s.acc := rfl
@[simp] theorem State.returnsNothing_errCmd (s : State) : (s.returnsNothing).errCmd = s.errCmd := rfl
@[simp] theorem State.returnsNothing_errRange (s : State) : (s.returnsNothing).errRange = s.errRange := rfl
@[simp] theorem State.returnsNothing_buf (s : State) : (s.returnsNothing).buf = s.buf := rfl
@[simp] theorem State.returnsNothing_bufSize (s : State) : (s.returnsNothing).bufSize = s.bufSize := rfl
@[simp] theorem State.returnsNothing_response (s : State) : (s.returnsNothing).response = none := rfl
@[simp] theorem State.returnsNothing_pending (s : State) : (s.returnsNothing).pending = s.pending := rfl

@[simp] theorem State.memWrite_addr (s : State) (a : Nat) (b : Byte) : (s.memWrite a b).addr = s.addr := rfl
@[simp] theorem State.memWrite_len (s : State) (a : Nat) (b : Byte) : (s.memWrite a b).len = s.len := rfl
@[simp] theorem State.memWrite_acc (s : State) (a : Nat) (b : Byte) : (s.memWrite a b).acc = s.acc := rfl
@[simp] theorem State.memWrite_errCmd (s : State) (a : Nat) (b : Byte) : (s.memWrite a b).errCmd = s.errCmd := rfl
@[simp] theorem State.memWrite_errRange (s : State) (a : Nat) (b : Byte) : (s.memWrite a b).errRange = s.errRange := rfl
@[simp] theorem State.memWrite_buf (s : State) (a : Nat) (b : Byte) : (s.memWrite a b).buf = (s.buf.write a b) := rfl
@[simp] theorem State.memWrite_bufSize (s : State) (a : Nat) (b : Byte) : (s.memWrite a b).bufSize = s.bufSize := rfl
@[simp] theorem State.memWrite_response (s : State) (a : Nat) (b : Byte) : (s.memWrite a b).response = s.response := rfl
@[simp] theorem State.memWrite_pending (s : State) (a : Nat) (b : Byte) : (s.memWrite a b).pending = s.pending := rfl

@[simp] theorem State.memWriteBytes_addr (s : State) (a : Nat) (bs : List Byte) : (s.memWriteBytes a bs).addr = s.addr := rfl
@[simp] theorem State.memWriteBytes_len (s : State) (a : Nat) (bs : List Byte) : (s.memWriteBytes a bs).len = s.len := rfl
@[simp] theorem State.memWriteBytes_acc (s : State) (a : Nat) (bs : List Byte) : (s.memWriteBytes a bs).acc = s.acc := rfl
@[simp] theorem State.memWriteBytes_errCmd (s : State) (a : Nat) (bs : List Byte) : (s.memWriteBytes a bs).errCmd = s.errCmd := rfl
@[simp] theorem State.memWriteBytes_errRange (s : State) (a : Nat) (bs : List Byte) : (s.memWriteBytes a bs).errRange = s.errRange := rfl
@[simp] theorem State.memWriteBytes_buf (s : State) (a : Nat) (bs : List Byte) : (s.memWriteBytes a bs).buf = (s.buf.writeBytes a bs) := rfl
@[simp] theorem State.memWriteBytes_bufSize (s : State) (a : Nat) (bs : List Byte) : (s.memWriteBytes a bs).bufSize = s.bufSize := rfl
@[simp] theorem State.memWriteBytes_response (s : State) (a : Nat) (bs : List Byte) : (s.memWriteBytes a bs).response = s.response := rfl
@[simp] theorem State.memWriteBytes_pending (s : State) (a : Nat) (bs : List Byte) : (s.memWriteBytes a bs).pending = s.pending := rfl

@[simp] theorem State.memWriteN_addr (s : State) (a n v : Nat) : (s.memWriteN a n v).addr = s.addr := rfl
@[simp] theorem State.memWriteN_len (s : State) (a n v : Nat) : (s.memWriteN a n v).len = s.len := rfl
@[simp] theorem State.memWriteN_acc (s : State) (a n v : Nat) : (s.memWriteN a n v).acc = s.acc := rfl
@[simp] theorem State.memWriteN_errCmd (s : State) (a n v : Nat) : (s.memWriteN a n v).errCmd = s.errCmd := rfl
@[simp] theorem State.memWriteN_errRange (s : State) (a n v : Nat) : (s.memWriteN a n v).errRange = s.errRange := rfl
@[simp] theorem State.memWriteN_buf (s : State) (a n v : Nat) : (s.memWriteN a n v).buf = (s.buf.writeBytes a (leBytes n v)) := rfl
@[simp] theorem State.memWriteN_bufSize (s : State) (a n v : Nat) : (s.memWriteN a n v).bufSize = s.bufSize := rfl
@[simp] theorem State.memWriteN_response (s : State) (a n v : Nat) : (s.memWriteN a n v).response = s.response := rfl
@[simp] theorem State.memWriteN_pending (s : State) (a n v : Nat) : (s.memWriteN a n v).pending = s.pending := rfl

@[simp] theorem State.clearFlags_addr (s : State) (m : BitVec 2) : (s.clearFlags m).addr = s.addr := rfl
@[simp] theorem State.clearFlags_len (s : State) (m : BitVec 2) : (s.clearFlags m).len = s.len := rfl
@[simp] theorem State.clearFlags_acc (s : State) (m : BitVec 2) : (s.clearFlags m).acc = s.acc := rfl
@[simp] theorem State.clearFlags_errCmd (s : State) (m : BitVec 2) : (s.clearFlags m).errCmd = (if m.getLsbD 0 then false else s.errCmd) := rfl
@[simp] theorem State.clearFlags_errRange (s : State) (m : BitVec 2) : (s.clearFlags m).errRange = (if m.getLsbD 1 then false else s.errRange) := rfl
@[simp] theorem State.clearFlags_buf (s : State) (m : BitVec 2) : (s.clearFlags m).buf = s.buf := rfl
@[simp] theorem State.clearFlags_bufSize (s : State) (m : BitVec 2) : (s.clearFlags m).bufSize = s.bufSize := rfl
@[simp] theorem State.clearFlags_response (s : State) (m : BitVec 2) : (s.clearFlags m).response = s.response := rfl
@[simp] theorem State.clearFlags_pending (s : State) (m : BitVec 2) : (s.clearFlags m).pending = s.pending := rfl

@[simp] theorem State.placeNext_addr (s : State) (e : HostEvent) : (s.placeNext e).addr = s.addr := rfl
@[simp] theorem State.placeNext_len (s : State) (e : HostEvent) : (s.placeNext e).len = s.len := rfl
@[simp] theorem State.placeNext_acc (s : State) (e : HostEvent) : (s.placeNext e).acc = s.acc := rfl
@[simp] theorem State.placeNext_errCmd (s : State) (e : HostEvent) : (s.placeNext e).errCmd = s.errCmd := rfl
@[simp] theorem State.placeNext_errRange (s : State) (e : HostEvent) : (s.placeNext e).errRange = s.errRange := rfl
@[simp] theorem State.placeNext_buf (s : State) (e : HostEvent) : (s.placeNext e).buf = s.buf := rfl
@[simp] theorem State.placeNext_bufSize (s : State) (e : HostEvent) : (s.placeNext e).bufSize = s.bufSize := rfl
@[simp] theorem State.placeNext_response (s : State) (e : HostEvent) : (s.placeNext e).response = s.response := rfl
@[simp] theorem State.placeNext_pending (s : State) (e : HostEvent) : (s.placeNext e).pending = (e :: s.pending) := rfl

@[simp] theorem State.afterResetEvent_addr (s : State) : (s.afterResetEvent).addr = 0 := rfl
@[simp] theorem State.afterResetEvent_len (s : State) : (s.afterResetEvent).len = 0 := rfl
@[simp] theorem State.afterResetEvent_acc (s : State) : (s.afterResetEvent).acc = 0xFFFFFFFF := rfl
@[simp] theorem State.afterResetEvent_errCmd (s : State) : (s.afterResetEvent).errCmd = false := rfl
@[simp] theorem State.afterResetEvent_errRange (s : State) : (s.afterResetEvent).errRange = false := rfl
@[simp] theorem State.afterResetEvent_buf (s : State) : (s.afterResetEvent).buf = [] := rfl
@[simp] theorem State.afterResetEvent_bufSize (s : State) : (s.afterResetEvent).bufSize = s.bufSize := rfl
@[simp] theorem State.afterResetEvent_response (s : State) : (s.afterResetEvent).response = none := rfl
@[simp] theorem State.afterResetEvent_pending (s : State) : (s.afterResetEvent).pending = s.pending := rfl

@[simp] theorem State.raise_addr (s : State) (e : ErrorEvent) : (s.raise e).addr = s.addr := by cases e <;> rfl
@[simp] theorem State.raise_len (s : State) (e : ErrorEvent) : (s.raise e).len = s.len := by cases e <;> rfl
@[simp] theorem State.raise_acc (s : State) (e : ErrorEvent) : (s.raise e).acc = s.acc := by cases e <;> rfl
@[simp] theorem State.raise_buf (s : State) (e : ErrorEvent) : (s.raise e).buf = s.buf := by cases e <;> rfl
@[simp] theorem State.raise_bufSize (s : State) (e : ErrorEvent) : (s.raise e).bufSize = s.bufSize := by cases e <;> rfl
@[simp] theorem State.raise_response (s : State) (e : ErrorEvent) : (s.raise e).response = s.response := by cases e <;> rfl
@[simp] theorem State.raise_pending (s : State) (e : ErrorEvent) : (s.raise e).pending = s.pending := by cases e <;> rfl
@[simp] theorem State.raise_errCmd_errCmd (s : State) : (s.raise .errCmd).errCmd = true := rfl
@[simp] theorem State.raise_errCmd_errRange (s : State) : (s.raise .errCmd).errRange = s.errRange := rfl
@[simp] theorem State.raise_errRange_errCmd (s : State) : (s.raise .errRange).errCmd = s.errCmd := rfl
@[simp] theorem State.raise_errRange_errRange (s : State) : (s.raise .errRange).errRange = true := rfl

@[simp] theorem State.resetOf_addr (n : Nat) : (State.resetOf n).addr = 0 := rfl
@[simp] theorem State.resetOf_len (n : Nat) : (State.resetOf n).len = 0 := rfl
@[simp] theorem State.resetOf_acc (n : Nat) : (State.resetOf n).acc = 0xFFFFFFFF := rfl
@[simp] theorem State.resetOf_errCmd (n : Nat) : (State.resetOf n).errCmd = false := rfl
@[simp] theorem State.resetOf_errRange (n : Nat) : (State.resetOf n).errRange = false := rfl
@[simp] theorem State.resetOf_buf (n : Nat) : (State.resetOf n).buf = [] := rfl
@[simp] theorem State.resetOf_bufSize (n : Nat) : (State.resetOf n).bufSize = n := rfl
@[simp] theorem State.resetOf_response (n : Nat) : (State.resetOf n).response = none := rfl
@[simp] theorem State.resetOf_pending (n : Nat) : (State.resetOf n).pending = [] := rfl

/-- The flag a raise sets is the STATUS bit of its code (60_exceptions.md R200). -/
theorem State.raise_statusBit (s : State) (e : ErrorEvent) :
    (s.raise e).statusWord.getLsbD (errorCode e) = true := by
  cases e <;> cases hc : s.errCmd <;> cases hr : s.errRange <;>
    simp [State.statusWord, errorCode, hc, hr]

end Sys2Proof.Machine
end

