-- ==== Sys2Proof/Laws/Ops.lean ====
section
/-! SUPPORT. For each shared operation, once, everything it can do. -/

namespace Sys2Proof.Machine

theorem State.memRead_ok {s : State} {a : Nat} {b : Byte} :
    s.memRead a = .ok b ↔ s.buf.read a = some b := by
  unfold State.memRead
  split <;> simp_all

theorem State.memRead_error {s : State} {a : Nat} {f : Fault} :
    s.memRead a = .error f ↔ s.buf.read a = none ∧ f = .unwritten a := by
  unfold State.memRead
  cases h : s.buf.read a <;> simp [eq_comm]

theorem State.holdsBytes_cons {s : State} {a : Nat} {b : Byte} {bs : List Byte} :
    s.holdsBytes a (b :: bs) ↔ s.buf.read a = some b ∧ s.holdsBytes (a + 1) bs := by
  unfold State.holdsBytes
  constructor
  · intro h
    refine ⟨by simpa using h 0 (by simp), fun j hj => ?_⟩
    have := h (j + 1) (by simpa using hj)
    simpa [Nat.add_assoc, Nat.add_comm 1 j] using this
  · rintro ⟨h0, h1⟩ j hj
    cases j with
    | zero => simpa using h0
    | succ j =>
      have := h1 j (by simpa using hj)
      simpa [Nat.add_assoc, Nat.add_comm 1 j] using this

theorem State.holdsBytes_append {s : State} {a : Nat} {xs ys : List Byte} :
    s.holdsBytes a (xs ++ ys) ↔ s.holdsBytes a xs ∧ s.holdsBytes (a + xs.length) ys := by
  induction xs generalizing a with
  | nil => simp [State.holdsBytes]
  | cons x xs ih =>
    rw [List.cons_append, State.holdsBytes_cons, State.holdsBytes_cons, ih, and_assoc,
      List.length_cons, Nat.add_assoc, Nat.add_comm 1]

/-- A span read answers exactly the bytes that stand there. -/
theorem State.readSpan_ok {s : State} {a n : Nat} {bs : List Byte} :
    s.readSpan a n = .ok bs ↔ bs.length = n ∧ s.holdsBytes a bs := by
  induction n generalizing a bs with
  | zero =>
    cases bs with
    | nil => simp [State.readSpan, State.holdsBytes]
    | cons b bs => simp [State.readSpan]
  | succ n ih =>
    unfold State.readSpan
    cases hr : s.memRead a with
    | error f =>
      rw [State.memRead_error] at hr
      cases bs with
      | nil => simp
      | cons b bs => simp [State.holdsBytes_cons, hr.1]
    | ok b =>
      rw [State.memRead_ok] at hr
      cases hs : s.readSpan (a + 1) n with
      | error f =>
        cases bs with
        | nil => simp
        | cons b' bs =>
          have := (ih (a := a + 1) (bs := bs)).not.mp (by rw [hs]; simp)
          simp only [reduceCtorEq, false_iff, List.length_cons, Nat.add_right_cancel_iff,
            State.holdsBytes_cons]
          rintro ⟨h1, -, h2⟩
          exact this ⟨h1, h2⟩
      | ok bs0 =>
        rw [ih] at hs
        cases bs with
        | nil => simp
        | cons b' bs =>
          simp only [Except.ok.injEq, List.cons.injEq, List.length_cons, Nat.add_right_cancel_iff,
            State.holdsBytes_cons, hr, Option.some.injEq]
          constructor
          · rintro ⟨rfl, rfl⟩; exact ⟨hs.1, rfl, hs.2⟩
          · rintro ⟨h1, rfl, h2⟩
            refine ⟨rfl, ?_⟩
            refine List.ext_getElem? fun j => ?_
            by_cases hj : j < n
            · rw [← hs.2 j (by omega), ← h2 j (by omega)]
            · rw [List.getElem?_eq_none (by omega), List.getElem?_eq_none (by omega)]

/-- A span read stops exactly at the first unwritten byte. -/
theorem State.readSpan_error {s : State} {a n : Nat} {f : Fault} :
    s.readSpan a n = .error f ↔ ∃ j, j < n ∧ f = .unwritten (a + j) ∧ s.buf.read (a + j) = none
      ∧ ∀ i, i < j → s.buf.read (a + i) ≠ none := by
  induction n generalizing a with
  | zero => simp [State.readSpan]
  | succ n ih =>
    unfold State.readSpan
    cases hr : s.memRead a with
    | error f' =>
      rw [State.memRead_error] at hr
      constructor
      · rintro h
        cases h
        exact ⟨0, by omega, hr.2, hr.1, by omega⟩
      · rintro ⟨j, hj, rfl, h1, h2⟩
        cases j with
        | zero => simp [hr.2]
        | succ j => exact absurd hr.1 (h2 0 (by omega))
    | ok b =>
      rw [State.memRead_ok] at hr
      have key : s.readSpan (a + 1) n = .error f ↔ ∃ j, j < n + 1 ∧ f = .unwritten (a + j) ∧
          s.buf.read (a + j) = none ∧ ∀ i, i < j → s.buf.read (a + i) ≠ none := by
        rw [ih]
        constructor
        · rintro ⟨j, hj, h0, h1, h2⟩
          refine ⟨j + 1, by omega, by rw [h0]; congr 1; omega, by rw [← h1]; congr 1; omega, ?_⟩
          intro i hi
          cases i with
          | zero => simp [hr]
          | succ i => have := h2 i (by omega); rwa [Nat.add_assoc, Nat.add_comm 1 i] at this
        · rintro ⟨j, hj, h0, h1, h2⟩
          cases j with
          | zero => simp [hr] at h1
          | succ j =>
            refine ⟨j, by omega, by rw [h0]; congr 1; omega, by rw [← h1]; congr 1; omega, ?_⟩
            intro i hi
            have := h2 (i + 1) (by omega)
            rwa [Nat.add_assoc, Nat.add_comm 1 i]
      rw [← key]
      cases hs : s.readSpan (a + 1) n <;> simp

/-- What a span read reads depends on those bytes alone. -/
theorem State.readSpan_congr {s t : State} {a n : Nat}
    (h : ∀ j, j < n → s.buf.read (a + j) = t.buf.read (a + j)) : s.readSpan a n = t.readSpan a n := by
  induction n generalizing a with
  | zero => rfl
  | succ n ih =>
    have h0 : s.memRead a = t.memRead a := by
      have := h 0 (by omega)
      simp only [Nat.add_zero] at this
      unfold State.memRead
      rw [this]
    have hs : s.readSpan (a + 1) n = t.readSpan (a + 1) n := ih fun j hj => by
      have := h (j + 1) (by omega)
      rwa [Nat.add_assoc, Nat.add_comm 1 j]
    unfold State.readSpan
    rw [h0, hs]

/-- Everything `accumulateSpan` can do: it folds the bytes of the span into ACC, raises ErrRange, or stops
at the first unwritten byte. It never refuses. -/
theorem accumulateSpan_cases (c : Word) (s : State) :
    (∃ bs, s.spanHolds bs ∧
        accumulateSpan c s = .next { s with acc := crcFold c bs, response := none }) ∨
    (s.bufSize < s.addr.toNat + s.len.toNat ∧
        accumulateSpan c s = .next { s with errRange := true, response := none }) ∨
    (s.addr.toNat + s.len.toNat ≤ s.bufSize ∧ ∃ j, j < s.len.toNat ∧
        s.buf.read (s.addr.toNat + j) = none ∧
        (∀ i, i < j → s.buf.read (s.addr.toNat + i) ≠ none) ∧
        accumulateSpan c s = .fault (.unwritten (s.addr.toNat + j))) := by
  unfold accumulateSpan State.spanFits State.spanEnd State.spanStart State.spanLen
  by_cases h : s.addr.toNat + s.len.toNat ≤ s.bufSize
  · rw [if_pos (by simpa using h)]
    cases hr : s.readSpan s.addr.toNat s.len.toNat with
    | ok bs =>
      have := State.readSpan_ok.mp hr
      exact .inl ⟨bs, ⟨h, this.1, this.2⟩, rfl⟩
    | error f =>
      obtain ⟨j, hj, rfl, h1, h2⟩ := State.readSpan_error.mp hr
      exact .inr (.inr ⟨h, j, hj, h1, h2, rfl⟩)
  · rw [if_neg (by simpa using h)]
    exact .inr (.inl ⟨by omega, rfl⟩)

/-- The buffer after a DFU_APPEND: the suffix of `image` written from address `e` on. -/
@[irreducible] def appendedBuffer (m : Memory) (e : Nat) (image : List Byte) : Memory :=
  (m.writeBytes e fixedSuffix).writeBytes (e + 12) (leBytes 4 (dwCrc image).toNat)

/-- What the buffer after a DFU_APPEND reads as: the 16 bytes of the suffix, and the old bytes. -/
theorem appendedBuffer_read (m : Memory) (e : Nat) (image : List Byte) (a : Nat) :
    (appendedBuffer m e image).read a =
      if e ≤ a ∧ a < e + 16 then (suffixOf image)[a - e]? else m.read a := by
  unfold appendedBuffer suffixOf
  rw [Memory.read_writeBytes, Memory.read_writeBytes]
  simp only [leBytes_length, fixedSuffix_length]
  by_cases h1 : e + 12 ≤ a ∧ a < e + 12 + 4
  · rw [if_pos h1, if_pos (by omega), List.getElem?_append_right (by simp; omega)]
    rw [fixedSuffix_length, Nat.sub_sub]
  · rw [if_neg h1]
    by_cases h2 : e ≤ a ∧ a < e + 12
    · rw [if_pos h2, if_pos (by omega), List.getElem?_append_left (by simp; omega)]
    · rw [if_neg h2, if_neg (by omega)]

/-- The appended buffer keeps the canonical form. -/
theorem appendedBuffer_wf (m : Memory) (e : Nat) (image : List Byte) (h : m.wf = true) :
    (appendedBuffer m e image).wf = true := by
  unfold appendedBuffer
  exact Memory.wf_writeBytes _ _ _ (Memory.wf_writeBytes _ _ _ h)

/-- The appended buffer stays below a bound when the suffix fits under it. -/
theorem appendedBuffer_below {m : Memory} {e n : Nat} (image : List Byte) (h : ∀ c ∈ m, c.1 < n)
    (hfit : e + 16 ≤ n) : ∀ c ∈ appendedBuffer m e image, c.1 < n := by
  unfold appendedBuffer
  refine Memory.writeBytes_below (Memory.writeBytes_below h (.inr ?_)) (.inr ?_)
  · simp only [fixedSuffix_length]; omega
  · simp only [leBytes_length]; omega

/-- DFU_APPEND clears no written mark. -/
theorem appendedBuffer_keeps_written (m : Memory) (e : Nat) (image : List Byte) {a : Nat}
    (h : m.read a ≠ none) : (appendedBuffer m e image).read a ≠ none := by
  unfold appendedBuffer
  exact Memory.writeBytes_keeps_written _ _ _ (Memory.writeBytes_keeps_written _ _ _ h)

/-- Everything DFU_APPEND can do: it appends the suffix of the image, raises ErrRange, or stops at the
first unwritten byte of the image. It never refuses. -/
theorem execDfuAppend_cases (s : State) :
    (∃ image, s.imageReady image ∧
        execDfuAppend s = .next { s with
          buf := appendedBuffer s.buf (s.addr.toNat + s.len.toNat) image
          acc := crcFold crcInit (image ++ fixedSuffix)
          len := BitVec.ofNat 32 (s.len.toNat + 16)
          response := none }) ∨
    (s.bufSize < s.addr.toNat + s.len.toNat + 16 ∧
        execDfuAppend s = .next { s with errRange := true, response := none }) ∨
    (s.addr.toNat + s.len.toNat + 16 ≤ s.bufSize ∧ ∃ j, j < s.len.toNat ∧
        s.buf.read (s.addr.toNat + j) = none ∧
        (∀ i, i < j → s.buf.read (s.addr.toNat + i) ≠ none) ∧
        execDfuAppend s = .fault (.unwritten (s.addr.toNat + j))) := by
  unfold execDfuAppend State.suffixFits State.spanEnd State.spanStart State.spanLen
  by_cases h : s.addr.toNat + s.len.toNat + 16 ≤ s.bufSize
  · rw [if_pos (by simpa using h)]
    have hout : ∀ a, a < s.addr.toNat + s.len.toNat →
        (s.memWriteBytes (s.addr.toNat + s.len.toNat) fixedSuffix).buf.read a = s.buf.read a :=
      fun a ha => Memory.read_writeBytes_outside _ _ (.inl ha)
    have hfix : (s.memWriteBytes (s.addr.toNat + s.len.toNat) fixedSuffix).holdsBytes
        (s.addr.toNat + s.len.toNat) fixedSuffix :=
      fun j hj => Memory.read_writeBytes_inside _ _ _ hj
    cases hr : s.readSpan s.addr.toNat s.len.toNat with
    | ok image =>
      have hi := State.readSpan_ok.mp hr
      have hs : (s.memWriteBytes (s.addr.toNat + s.len.toNat) fixedSuffix).readSpan s.addr.toNat
          (s.len.toNat + 12) = .ok (image ++ fixedSuffix) := by
        rw [State.readSpan_ok]
        refine ⟨by simp [hi.1], State.holdsBytes_append.mpr ⟨fun j hj => ?_, ?_⟩⟩
        · rw [hout _ (by omega)]; exact hi.2 j hj
        · rw [hi.1]; exact hfix
      refine .inl ⟨image, ⟨h, hi.1, hi.2⟩, ?_⟩
      simp only [hs]
      simp only [appendedBuffer, dwCrc, crc32, suffixLength, State.memWriteN,
        State.memWriteBytes, State.returnsNothing]
    | error f =>
      obtain ⟨j, hj, rfl, h1, h2⟩ := State.readSpan_error.mp hr
      have hs : (s.memWriteBytes (s.addr.toNat + s.len.toNat) fixedSuffix).readSpan s.addr.toNat
          (s.len.toNat + 12) = .error (.unwritten (s.addr.toNat + j)) := by
        rw [State.readSpan_error]
        refine ⟨j, by omega, rfl, by rw [hout _ (by omega)]; exact h1, fun i hi => ?_⟩
        rw [hout _ (by omega)]; exact h2 i hi
      refine .inr (.inr ⟨h, j, hj, h1, h2, ?_⟩)
      simp only [hs]
  · rw [if_neg (by simpa using h)]
    exact .inr (.inl ⟨by omega, rfl⟩)

/-- Bytes of one length that stand at one place are the same bytes. -/
theorem State.holdsBytes_unique {s : State} {a : Nat} {xs ys : List Byte} (hx : s.holdsBytes a xs)
    (hy : s.holdsBytes a ys) (hlen : xs.length = ys.length) : xs = ys := by
  have h1 := State.readSpan_ok.mpr ⟨rfl, hx⟩
  have h2 := State.readSpan_ok.mpr ⟨hlen.symm, hy⟩
  rw [h1] at h2
  exact Except.ok.inj h2

/-- A byte of a sequence that stands in the buffer is written. -/
theorem State.holdsBytes_written {s : State} {a j : Nat} {bs : List Byte} (h : s.holdsBytes a bs)
    (hj : j < bs.length) : s.buf.read (a + j) ≠ none := by
  rw [h j hj, List.getElem?_eq_getElem hj]
  exact Option.some_ne_none _

/-- With the image ready, DFU_APPEND completes. -/
theorem execDfuAppend_of_imageReady {s : State} {image : List Byte} (h : s.imageReady image) :
    execDfuAppend s = .next { s with
      buf := appendedBuffer s.buf (s.addr.toNat + s.len.toNat) image
      acc := crcFold crcInit (image ++ fixedSuffix)
      len := BitVec.ofNat 32 (s.len.toNat + 16)
      response := none } := by
  obtain ⟨hfit, hlen, hbytes⟩ := h
  rcases execDfuAppend_cases s with ⟨image', ⟨-, hlen', hbytes'⟩, he⟩ | ⟨hroom, -⟩ | ⟨-, j, hj, hnone, -⟩
  · rw [he, State.holdsBytes_unique hbytes' hbytes (hlen'.trans hlen.symm)]
  · omega
  · exact absurd hnone (State.holdsBytes_written hbytes (hlen ▸ hj))

/-- Everything BUFR can do. -/
theorem execBufr_cases (a : Word) (s : State) :
    (∃ b, a.toNat < s.bufSize ∧ s.buf.read a.toNat = some b ∧
        execBufr a s = .next { s with response := some (b.setWidth 32) }) ∨
    (s.bufSize ≤ a.toNat ∧ execBufr a s = .next { s with errRange := true, response := some 0 }) ∨
    (a.toNat < s.bufSize ∧ s.buf.read a.toNat = none ∧
        execBufr a s = .fault (.unwritten a.toNat)) := by
  unfold execBufr State.inBuffer
  by_cases h : a.toNat < s.bufSize
  · rw [if_pos (by simpa using h)]
    cases hr : s.memRead a.toNat with
    | ok b => exact .inl ⟨b, h, State.memRead_ok.mp hr, rfl⟩
    | error f =>
      obtain ⟨h1, rfl⟩ := State.memRead_error.mp hr
      exact .inr (.inr ⟨h, h1, rfl⟩)
  · rw [if_neg (by simpa using h)]
    exact .inr (.inl ⟨by omega, rfl⟩)

/-- Everything BUFW can do. -/
theorem execBufw_cases (a d : Word) (s : State) :
    (a.toNat < s.bufSize ∧ execBufw a d s = .next { s with
        buf := s.buf.write a.toNat (d.extractLsb' 0 8), response := none }) ∨
    (s.bufSize ≤ a.toNat ∧ execBufw a d s = .next { s with errRange := true, response := none }) := by
  unfold execBufw State.inBuffer
  by_cases h : a.toNat < s.bufSize
  · rw [if_pos (by simpa using h)]
    exact .inl ⟨h, rfl⟩
  · rw [if_neg (by simpa using h)]
    exact .inr ⟨by omega, rfl⟩

/-- The fetch answers the first event and leaves the rest. -/
theorem State.fetch_cases (s : State) :
    (s.pending = [] ∧ s.fetch = none) ∨
    (∃ e es, s.pending = e :: es ∧ s.fetch = some (e, { s with pending := es })) := by
  unfold State.fetch
  cases h : s.pending with
  | nil => exact .inl ⟨rfl, rfl⟩
  | cons e es => exact .inr ⟨e, es, rfl, rfl⟩

end Sys2Proof.Machine
end

