-- ==== Sys2Proof/Laws/PerInstr.lean ====
section
/-! SUPPORT. Statements for all instructions, one lemma for each constructor of Instr. -/

namespace Sys2Proof.Laws.EncodesItsSelector

/-- The encoding of an instruction holds the selector of its row of the opcode table (30_encoding.md R74), its A
is 0 unless K says a buffer access, and its D is 0 unless K says a write (R70, R71). -/
def Statement (i : Instr) : Prop :=
  (encode i).k ++ (encode i).x = i.row.pattern.extractLsb' 64 5 ∧
  ((encode i).k.getLsbD 1 = false → (encode i).a = 0) ∧
  ((encode i).k.getLsbD 0 = false → (encode i).d = 0)

/-- The statement from the values of K and X, which are closed, and the fields K says are ignored. -/
theorem of_fields {i : Instr} {k : BitVec 2} {x : BitVec 3} (hk : (encode i).k = k) (hx : (encode i).x = x)
    (hsel : k ++ x = i.row.pattern.extractLsb' 64 5) (ha : k.getLsbD 1 = false → (encode i).a = 0)
    (hd : k.getLsbD 0 = false → (encode i).d = 0) : Statement i := by
  subst hk hx
  exact ⟨hsel, ha, hd⟩

theorem rdCtrl : Statement .rdCtrl :=
  ⟨rfl, fun _ => rfl, fun _ => rfl⟩

theorem rdStatus : Statement .rdStatus :=
  ⟨rfl, fun _ => rfl, fun _ => rfl⟩

theorem rdAddr : Statement .rdAddr :=
  ⟨rfl, fun _ => rfl, fun _ => rfl⟩

theorem rdLen : Statement .rdLen :=
  ⟨rfl, fun _ => rfl, fun _ => rfl⟩

theorem rdAcc : Statement .rdAcc :=
  ⟨rfl, fun _ => rfl, fun _ => rfl⟩

theorem rdResult : Statement .rdResult :=
  ⟨rfl, fun _ => rfl, fun _ => rfl⟩

theorem rdDataIn : Statement .rdDataIn :=
  ⟨rfl, fun _ => rfl, fun _ => rfl⟩

theorem rdR7 : Statement .rdR7 :=
  ⟨rfl, fun _ => rfl, fun _ => rfl⟩

theorem wrCtrl (d : Word) : Statement (.wrCtrl d) :=
  of_fields (k := 0b01#2) (x := 0#3) rfl rfl (by decide : _ = BitVec.extractLsb' 64 5 (Instr.wrCtrl 0).row.pattern)
    (fun _ => rfl) (fun h => absurd h (by decide))

theorem wrStatus (d : Word) : Statement (.wrStatus d) :=
  of_fields (k := 0b01#2) (x := 1#3) rfl rfl (by decide : _ = BitVec.extractLsb' 64 5 (Instr.wrStatus 0).row.pattern)
    (fun _ => rfl) (fun h => absurd h (by decide))

theorem wrAddr (d : Word) : Statement (.wrAddr d) :=
  of_fields (k := 0b01#2) (x := 2#3) rfl rfl (by decide : _ = BitVec.extractLsb' 64 5 (Instr.wrAddr 0).row.pattern)
    (fun _ => rfl) (fun h => absurd h (by decide))

theorem wrLen (d : Word) : Statement (.wrLen d) :=
  of_fields (k := 0b01#2) (x := 3#3) rfl rfl (by decide : _ = BitVec.extractLsb' 64 5 (Instr.wrLen 0).row.pattern)
    (fun _ => rfl) (fun h => absurd h (by decide))

theorem wrAcc (d : Word) : Statement (.wrAcc d) :=
  of_fields (k := 0b01#2) (x := 4#3) rfl rfl (by decide : _ = BitVec.extractLsb' 64 5 (Instr.wrAcc 0).row.pattern)
    (fun _ => rfl) (fun h => absurd h (by decide))

theorem wrResult (d : Word) : Statement (.wrResult d) :=
  of_fields (k := 0b01#2) (x := 5#3) rfl rfl (by decide : _ = BitVec.extractLsb' 64 5 (Instr.wrResult 0).row.pattern)
    (fun _ => rfl) (fun h => absurd h (by decide))

theorem wrDataIn (d : Word) : Statement (.wrDataIn d) :=
  of_fields (k := 0b01#2) (x := 6#3) rfl rfl (by decide : _ = BitVec.extractLsb' 64 5 (Instr.wrDataIn 0).row.pattern)
    (fun _ => rfl) (fun h => absurd h (by decide))

theorem wrR7 (d : Word) : Statement (.wrR7 d) :=
  of_fields (k := 0b01#2) (x := 7#3) rfl rfl (by decide : _ = BitVec.extractLsb' 64 5 (Instr.wrR7 0).row.pattern)
    (fun _ => rfl) (fun h => absurd h (by decide))

theorem bufr (a : Word) : Statement (.bufr a) :=
  of_fields (k := 0b10#2) (x := 0#3) rfl rfl (by decide : _ = BitVec.extractLsb' 64 5 (Instr.bufr 0).row.pattern)
    (fun h => absurd h (by decide)) (fun _ => rfl)

theorem bufw (a : Word) (d : Word) : Statement (.bufw a d) :=
  of_fields (k := 0b11#2) (x := 0#3) rfl rfl (by decide : _ = BitVec.extractLsb' 64 5 (Instr.bufw 0 0).row.pattern)
    (fun h => absurd h (by decide)) (fun h => absurd h (by decide))

theorem nop : Statement .nop :=
  ⟨rfl, fun _ => rfl, fun h => absurd h (by decide)⟩

theorem crcInit : Statement .crcInit :=
  ⟨rfl, fun _ => rfl, fun h => absurd h (by decide)⟩

theorem crcSpan : Statement .crcSpan :=
  ⟨rfl, fun _ => rfl, fun h => absurd h (by decide)⟩

theorem crcCompute : Statement .crcCompute :=
  ⟨rfl, fun _ => rfl, fun h => absurd h (by decide)⟩

theorem dfuAppend : Statement .dfuAppend :=
  ⟨rfl, fun _ => rfl, fun h => absurd h (by decide)⟩

theorem cmdRsvd5 : Statement .cmdRsvd5 :=
  ⟨rfl, fun _ => rfl, fun h => absurd h (by decide)⟩

theorem cmdRsvd6 : Statement .cmdRsvd6 :=
  ⟨rfl, fun _ => rfl, fun h => absurd h (by decide)⟩

theorem cmdRsvd7 : Statement .cmdRsvd7 :=
  ⟨rfl, fun _ => rfl, fun h => absurd h (by decide)⟩

theorem cmdRsvdOther (d : Word) : Statement (.cmdRsvdOther d) :=
  of_fields (k := 0b01#2) (x := 0#3) rfl rfl (by decide : _ = BitVec.extractLsb' 64 5 (Instr.cmdRsvdOther 0).row.pattern)
    (fun _ => rfl) (fun h => absurd h (by decide))

end Sys2Proof.Laws.EncodesItsSelector
end

