-- ==== Sys2Proof/Tests/Slice0.lean ====
section
/-! SUPPORT. Tests on small states, their expected results taken from 95_test_vectors.md or written out from the
encoding tables of 30_encoding.md, and a witness for the hypotheses of each statement that has some. -/

-- One theorem at a time: checked side by side, the closed evaluations below would each hold a thread's memory.
set_option Elab.async false

namespace Sys2Proof.Tests
open Sys2Proof Sys2Proof.Machine

/-- A view of the next state of an outcome, `none` when it is no next state. -/
def after {α : Type} (f : State → α) : Host.Outcome State Fault Refusal → Option α
  | .next s => some (f s)
  | .fault _ => none
  | .refused _ => none

/-- The fault of an outcome. -/
def faultOf : Host.Outcome State Fault Refusal → Option Fault
  | .next _ => none
  | .fault f => some f
  | .refused _ => none

/-- A block of `n` bytes after reset with `bs` written from `a` on and the span set to them. -/
def loaded (n a : Nat) (bs : List Byte) : State :=
  { (State.resetOf n).memWriteBytes a bs with
    addr := BitVec.ofNat 32 a, len := BitVec.ofNat 32 bs.length }

/-- BUF_SIZE = 64, BUF[i] = i, ACC = 0x12345678: the start state of vectors C-SPAN and C-COMP. -/
def ramp (addr len : Word) : State :=
  { loaded 64 0 ((List.range 64).map (BitVec.ofNat 8)) with addr := addr, len := len, acc := 0x12345678 }

/-- The nine ASCII bytes "123456789". -/
def nineDigits : List Byte := [0x31, 0x32, 0x33, 0x34, 0x35, 0x36, 0x37, 0x38, 0x39]

/-! ### WellFormed refuses -/

theorem test_wf_refuses_undecoded_wrCtrl : ¬ (Instr.wrCtrl 3).WellFormed := by decide
theorem test_wf_refuses_catchAll_without_rsv : ¬ (Instr.cmdRsvdOther 5).WellFormed := by decide

/-! ### Decoding: for each row a word written out from R71, R74 and R75 as {K, X, A, D} -/

theorem test_decode_rdCtrl : decodePacked 0b00_000_00000000000000000000000000000000_00000000000000000000000000000000 = .ok .rdCtrl := rfl
theorem test_decode_rdStatus : decodePacked 0b00_001_00000000000000000000000000000000_00000000000000000000000000000000 = .ok .rdStatus := rfl
theorem test_decode_rdAddr : decodePacked 0b00_010_11111111111111111111111111111111_11111111111111111111111111111111 = .ok .rdAddr := rfl
theorem test_decode_rdLen : decodePacked 0b00_011_00000000000000000000000000000000_00000000000000000000000000000000 = .ok .rdLen := rfl
theorem test_decode_rdAcc : decodePacked 0b00_100_00000000000000000000000000000000_00000000000000000000000000000000 = .ok .rdAcc := rfl
theorem test_decode_rdResult : decodePacked 0b00_101_00000000000000000000000000000000_00000000000000000000000000000000 = .ok .rdResult := rfl
theorem test_decode_rdDataIn : decodePacked 0b00_110_00000000000000000000000000000000_00000000000000000000000000000000 = .ok .rdDataIn := rfl
theorem test_decode_rdR7 : decodePacked 0b00_111_00000000000000000000000000000000_00000000000000000000000000000000 = .ok .rdR7 := rfl
theorem test_decode_wrStatus : decodePacked 0b01_001_00000000000000000000000000000000_00000000000000000000000000000010 = .ok (.wrStatus 2) := rfl
theorem test_decode_wrAddr : decodePacked 0b01_010_11111111111111111111111111111111_00010010001101000101011001111000 = .ok (.wrAddr 0x12345678) := rfl
theorem test_decode_wrLen : decodePacked 0b01_011_00000000000000000000000000000000_00000000000000000000000000001001 = .ok (.wrLen 9) := rfl
theorem test_decode_wrAcc : decodePacked 0b01_100_00000000000000000000000000000000_01100100000111000001111101011100 = .ok (.wrAcc 0x641C1F5C) := rfl
theorem test_decode_wrResult : decodePacked 0b01_101_00000000000000000000000000000000_00000000000000000000000000000001 = .ok (.wrResult 1) := rfl
theorem test_decode_wrDataIn : decodePacked 0b01_110_00000000000000000000000000000000_00000000000000000000000000110001 = .ok (.wrDataIn 0x31) := rfl
theorem test_decode_wrR7 : decodePacked 0b01_111_00000000000000000000000000000000_11111111111111111111111111111111 = .ok (.wrR7 0xFFFFFFFF) := rfl
theorem test_decode_bufr : decodePacked 0b10_101_00000000000000000000000000010001_00000000000000000000000000000001 = .ok (.bufr 0x11) := rfl
theorem test_decode_bufw : decodePacked 0b11_000_00000000000000000000000000101000_00000000000000000000000000111001 = .ok (.bufw 0x28 0x39) := rfl
theorem test_decode_nop : decodePacked 0b01_000_00000000000000000000000000000000_00000000000000000000000000000000 = .ok .nop := rfl
theorem test_decode_crcInit : decodePacked 0b01_000_00000000000000000000000000000000_00000000000000000000000000000001 = .ok .crcInit := rfl
theorem test_decode_crcSpan : decodePacked 0b01_000_00000000000000000000000000000111_00000000000000000000000000000010 = .ok .crcSpan := rfl
theorem test_decode_crcCompute : decodePacked 0b01_000_00000000000000000000000000000000_00000000000000000000000000000011 = .ok .crcCompute := rfl
theorem test_decode_dfuAppend : decodePacked 0b01_000_00000000000000000000000000000000_00000000000000000000000000000100 = .ok .dfuAppend := rfl
theorem test_decode_cmdRsvd5 : decodePacked 0b01_000_00000000000000000000000000000000_00000000000000000000000000000101 = .ok .cmdRsvd5 := rfl
theorem test_decode_cmdRsvd6 : decodePacked 0b01_000_00000000000000000000000000000000_00000000000000000000000000000110 = .ok .cmdRsvd6 := rfl
theorem test_decode_cmdRsvd7 : decodePacked 0b01_000_00000000000000000000000000000000_00000000000000000000000000000111 = .ok .cmdRsvd7 := rfl
theorem test_decode_cmdRsvdOther : decodePacked 0b01_000_00000000000000000000000000000000_10000000000000000000000000000011 = .ok (.cmdRsvdOther 0x80000003) := rfl
/-- The row of WR_CTRL gives way to the command rows (R71): its encoding decodes to the command. -/
theorem test_decode_wrCtrl_encoding_is_the_command : decode (encode (.wrCtrl 3)) = .crcCompute := rfl
theorem test_decode_refuses_bit69 : decodePacked (2 ^ 69) = .error .notATransaction := rfl
theorem test_decodeTableWord_bufw : decodeTableWord 72 0x180000002800000039 = some (.bufw 0x28 0x39) := rfl
theorem test_withFetchWord_runs_from_reset :
    after State.acc (step (State.reset.withFetchWord 72 0x0E0000000000000031)) = some 0x7C231048 := by decide +kernel

/-! ### The CRC function (95_test_vectors.md sections 2.1 and 2.2) and the suffix (R171) -/

/-- 0xEDB88320 is the bit reversal of 0x04C11DB7 (93_implementation_defined.md, literal check). -/
theorem test_poly_reversed : crcPolyNormal.reverse = crcPoly := by decide +kernel
theorem test_step8_firstDigit : step8 0xFFFFFFFF 0x31 = 0x7C231048 := by decide +kernel
theorem test_step8_poly : step8 0x00000000 0x80 = 0xEDB88320 := by decide +kernel
theorem test_step8Tabled_lastEntry : step8Tabled 0x00000000 0xFF = 0x2D02EF8D := by decide +kernel
theorem test_crc32_empty : crc32 [] = 0x00000000 := by decide +kernel
theorem test_crc32_abc : crc32 [0x61, 0x62, 0x63] = 0x352441C2 := by decide +kernel
theorem test_fixedSuffix_bytes : fixedSuffix =
    [0xFF, 0xFF, 0xFF, 0xFF, 0xFF, 0xFF, 0x00, 0x01, 0x55, 0x46, 0x44, 0x10] := by decide +kernel

/-! ### Register reads and writes (vectors H1 to H15) -/

theorem test_rdCtrl : after State.response (exec .rdCtrl State.reset) = some (some 0) := by decide
theorem test_rdDataIn : after State.response (exec .rdDataIn State.reset) = some (some 0) := by decide
theorem test_rdR7 : after State.response (exec .rdR7 State.reset) = some (some 0) := by decide
theorem test_rdAcc : after State.response (exec .rdAcc State.reset) = some (some 0xFFFFFFFF) := by decide
theorem test_rdResult : after State.response (exec .rdResult State.reset) = some (some 0x00000000) := by decide
theorem test_rdResult_nineDigits :
    after State.response (exec .rdResult { State.reset with acc := 0x340BC6D9 }) = some (some 0xCBF43926) := by decide
theorem test_rdStatus_errRange :
    after State.response (exec .rdStatus { State.reset with errRange := true }) = some (some 0x00000002) := by decide
theorem test_rdStatus_errCmd :
    after State.response (exec .rdStatus { State.reset with errCmd := true }) = some (some 0x00000001) := by decide
theorem test_rdAddr : after State.response (exec .rdAddr { State.reset with addr := 0x12345678 })
    = some (some 0x12345678) := by decide
theorem test_rdLen : after State.response (exec .rdLen { State.reset with len := 0x12 }) = some (some 0x12) := by decide
theorem test_wrStatus_clears_one : after State.statusWord
    (exec (.wrStatus 2) { State.reset with errCmd := true, errRange := true }) = some 0x00000001 := by decide
theorem test_wrStatus_cannot_set : after State.statusWord (exec (.wrStatus 0xFFFFFFFF) State.reset) = some 0 := by decide
theorem test_wrAddr : after State.addr (exec (.wrAddr 0x12345678) State.reset) = some 0x12345678 := by decide
theorem test_wrLen : after State.len (exec (.wrLen 9) State.reset) = some 9 := by decide
theorem test_wrAcc : after State.acc (exec (.wrAcc 0x641C1F5C) State.reset) = some 0x641C1F5C := by decide
theorem test_wrResult : after State.resultWord (exec (.wrResult 7) State.reset) = some 0 := by decide
theorem test_wrR7 : after id (exec (.wrR7 0xFFFFFFFF) State.reset) = some State.reset := by decide

/-! ### Buffer accesses (H8, H10 to H14) -/

theorem test_bufr_lastAddress :
    after State.response (exec (.bufr 63) (loaded 64 63 [0x3F])) = some (some 0x0000003F) := by decide +kernel
theorem test_bufw_ignores_high_bits :
    after (fun s => s.buf) (exec (.bufw 5 0x1FF) (State.resetOf 64)) = some [(5, 0xFF)] := by decide
theorem test_bufw_outOfRange : after (fun s => (s.statusWord, s.buf)) (exec (.bufw 64 0x11) (State.resetOf 64))
    = some (0x00000002, []) := by decide
theorem test_bufr_outOfRange : after (fun s => (s.statusWord, s.response)) (exec (.bufr 64) (State.resetOf 64))
    = some (0x00000002, some 0) := by decide

/-! ### Commands (C-INIT to C-FAULT, H6, H7) -/

theorem test_nop : after id (exec .nop State.reset) = some State.reset := by decide
theorem test_crcInit : after State.acc (exec .crcInit { State.reset with acc := 0x12345678 }) = some 0xFFFFFFFF := by decide
theorem test_wrDataIn_high_bits : after State.acc (exec (.wrDataIn 0x100) State.reset) = some 0x2DFD1072 := by decide +kernel
theorem test_cmdRsvd5 : after State.statusWord (exec .cmdRsvd5 State.reset) = some 1 := by decide
theorem test_cmdRsvd6 : after State.statusWord (exec .cmdRsvd6 State.reset) = some 1 := by decide
theorem test_cmdRsvd7 : after State.statusWord (exec .cmdRsvd7 State.reset) = some 1 := by decide
theorem test_cmdRsvdOther_runs_no_command : after (fun s => (s.acc, s.statusWord))
    (exec (.cmdRsvdOther 9) { State.reset with acc := 0x12345678 }) = some (0x12345678, 1) := by decide
theorem test_crcSpan_C_SPAN_1 :
    after (fun s => (s.acc, s.statusWord)) (exec .crcSpan (ramp 60 4)) = some (0xEFC45F54, 0) := by decide +kernel
theorem test_crcSpan_C_SPAN_5_no_wrap : after (fun s => (s.acc, s.statusWord)) (exec .crcSpan (ramp 0xFFFFFFFF 2))
    = some (0x12345678, 2) := by decide +kernel
theorem test_crcCompute_C_COMP_1 : after (fun s => (s.acc, s.resultWord)) (exec .crcCompute (ramp 60 4))
    = some (0xBF562779, 0x40A9D886) := by decide +kernel
theorem test_crcCompute_C_FAULT :
    faultOf (exec .crcCompute { loaded 64 0 [0x00] with len := 2 }) = some (.unwritten 1) := by decide +kernel
theorem test_wrCtrl_computes :
    after State.resultWord (exec (.wrCtrl 3) (loaded 64 0 nineDigits)) = some 0xCBF43926 := by decide +kernel
theorem test_wrCtrl_reserved : after State.statusWord (exec (.wrCtrl 0x80000003) State.reset) = some 1 := by decide
/-- Vector S1. -/
theorem test_dfuAppend_S1 :
    after (fun s => (s.buf.map Prod.snd, s.acc, s.len)) (exec .dfuAppend (loaded 64 0 [0xDE, 0xAD])) =
      some ([0xDE, 0xAD, 0xFF, 0xFF, 0xFF, 0xFF, 0xFF, 0xFF, 0x00, 0x01, 0x55, 0x46, 0x44, 0x10,
        0xD5, 0xCE, 0x31, 0xE6], 0x19CE312A, 18) := by decide +kernel
/-- Vector S6: no room by one byte. -/
theorem test_dfuAppend_S6 : after (fun s => (s.buf.length, s.acc, s.len, s.statusWord))
    (exec .dfuAppend { loaded 0x41 0x30 [0xDE, 0xAD] with acc := 0x1234 }) = some (2, 0x1234, 2, 2) := by decide +kernel

/-! ### The host's side -/

/-- `dfu 0, 2` of 30_encoding.md R79 as the packed words of program P3. -/
theorem test_assemble_dfu : (assemble (.dfu 0 2)).map (List.map fun t => t.pack.toNat) =
    some [0x0A0000000000000000, 0x0B0000000000000002, 0x080000000000000004] := by decide +kernel
theorem test_assemble_text : (assemble (.stbsText 0 ['1', '2'])).map (List.map fun t => t.pack.toNat) =
    some [0x180000000000000031, 0x180000000100000032] := by decide +kernel
theorem test_assemble_rejects_wide_byte : assemble (.stb 0 256) = none := by decide
theorem test_step_reset_event : after (fun s => (s.acc, s.buf))
    (step { loaded 64 0 [0xDE] with acc := 0, pending := [.reset] }) = some (0xFFFFFFFF, []) := by decide +kernel

/-! ### Witnesses: for each statement with hypotheses, a state and operands that meet all of them -/

/-- The words a state queues. -/
def queued (s : State) (i : Instr) : State := { s with pending := [.transaction (encode i)] }

/-- The block of vector S5, the image at 0x30 with exactly room for its suffix. -/
def exactRoom : State := loaded 0x42 0x30 [0xDE, 0xAD]

theorem nextIs_queued (s : State) (i j : Instr) (h : decode (encode i) = j) : (queued s i).nextIs j :=
  ⟨encode i, [], rfl, h⟩

theorem witness_DecodeOfEncodeIsIdentity : (Instr.cmdRsvdOther 9).WellFormed := by decide
theorem witness_AssembledLines_rejects : 255 < 256 := by decide
theorem witness_AssembledLines_stbs : 4294967295 + ([0x31] : List Byte).length ≤ 2 ^ 32 := by
  rw [List.length_singleton]
  omega
theorem witness_AssembledLines_text : ∀ c ∈ ['1', '2'], c.toNat < 128 := by simp
theorem witness_StepRunsDecodedTransaction :
    (queued State.reset .crcInit).pending = .transaction (encode .crcInit) :: [] ∧
      decode (encode .crcInit) = .crcInit ∧ decodeTableWord 72 0x080000000000000001 = some .crcInit :=
  ⟨rfl, rfl, rfl⟩
theorem witness_StepWithNothingPendingWaits : State.reset.pending = [] := rfl
theorem witness_ResetEventRestoresResetValues :
    ({ loaded 64 0 [0xDE] with pending := [.reset] } : State).pending = .reset :: [] := rfl
theorem witness_StepConsumesOneEvent :
    (queued State.reset .rdAcc).pending = .transaction (encode .rdAcc) :: [] ∧
      step (queued State.reset .rdAcc) = .next { State.reset with response := some 0xFFFFFFFF } := ⟨rfl, rfl⟩
theorem witness_StepConsumesOneEvent_idle :
    State.reset.pending = [] ∧ step State.reset = .next State.reset := ⟨rfl, rfl⟩
theorem witness_ResetStateMeetsInvariant_bounds :
    Config.legalBufSize 16 ∧ Config.legalBufSize 4294967296 := by decide
theorem witness_StepKeepsInvariant : (queued State.reset (.bufw 63 0xAB)).Inv ∧
    after (fun s => s.buf) (step (queued State.reset (.bufw 63 0xAB))) = some [(63, 0xAB)] := by decide
theorem witness_FlagsAreSticky_errCmd :
    step (queued { State.reset with errCmd := true } (.wrStatus 1)) = .next State.reset := rfl
theorem witness_FlagsAreSticky_errRange :
    step (queued { State.reset with errRange := true } (.wrStatus 2)) = .next State.reset := rfl
theorem witness_FlagsBlockNothing : exec .rdStatus State.reset = .next { State.reset with response := some 0 } := rfl
theorem witness_OnlyNamedTransactions_addr : step (queued State.reset (.wrAddr 1)) =
    .next { State.reset with addr := 1 } ∧ (1 : Word) ≠ State.reset.addr := ⟨rfl, by decide⟩
theorem witness_OnlyNamedTransactions_len : step (queued State.reset (.wrLen 1)) =
    .next { State.reset with len := 1 } ∧ (1 : Word) ≠ State.reset.len := ⟨rfl, by decide⟩
theorem witness_OnlyNamedTransactions_acc : step (queued State.reset (.wrAcc 1)) =
    .next { State.reset with acc := 1 } ∧ (1 : Word) ≠ State.reset.acc := ⟨rfl, by decide⟩
theorem witness_OnlyNamedTransactions_buf : step (queued State.reset (.bufw 0 1)) =
    .next { State.reset with buf := [(0, 1)] } ∧ ([(0, 1)] : Memory) ≠ State.reset.buf := ⟨rfl, by decide⟩
theorem witness_ExactlyTheReadsReturnData : exec .nop State.reset = .next State.reset := rfl
theorem witness_RepeatedAccesses_read : isRegisterRead .rdR7 ∧
    exec .rdR7 State.reset = .next { State.reset with response := some 0 } :=
  ⟨by simp [isRegisterRead], rfl⟩
theorem witness_RepeatedAccesses_write : isPlainRegisterWrite (.wrR7 0) ∧
    exec (.wrR7 0) State.reset = .next State.reset := ⟨⟨0, by simp⟩, rfl⟩
theorem witness_RepeatedAccesses_bufr : (63 : Word).toNat < (loaded 64 63 [0x3F]).bufSize ∧
    after State.response (exec (.bufr 63) (loaded 64 63 [0x3F])) = some (some 0x3F) := by decide +kernel
theorem witness_Errors_reserved : reservedWord .cmdRsvd5 ∧ reservedWord (.wrCtrl 5) ∧
    reservedWord (.wrCtrl 0xFFFFFFFF) ∧ reservedWord (.cmdRsvdOther 8) := by
  refine ⟨?_, ?_, ?_, ?_⟩ <;> simp [reservedWord]
theorem witness_Errors_range_span : rangeErrorCondition .crcSpan (ramp 65 0) ∧
    rangeErrorCondition (.wrCtrl 3) (ramp 60 5) :=
  ⟨.inl ⟨by simp, by decide⟩, .inl ⟨by simp, by decide⟩⟩
theorem witness_Errors_range_append :
    rangeErrorCondition .dfuAppend (loaded 0x41 0x30 [0xDE, 0xAD]) :=
  .inr (.inl ⟨by simp, by decide⟩)
theorem witness_Errors_range_bufw : rangeErrorCondition (.bufw 64 0) (State.resetOf 64) :=
  .inr (.inr (.inr ⟨64, 0, rfl, by decide⟩))
theorem witness_Errors_range_bufr : (State.resetOf 64).bufSize ≤ (64 : Word).toNat := by decide
theorem witness_Errors_rises_errCmd : exec .cmdRsvd7 State.reset = .next { State.reset with errCmd := true } := rfl
theorem witness_Errors_rises_errRange :
    exec (.bufw 64 0) State.reset = .next { State.reset with errRange := true } := rfl
theorem witness_BufferRead_written : (63 : Word).toNat < (loaded 64 63 [0x3F]).bufSize ∧
    (loaded 64 63 [0x3F]).buf.read 63 = some 0x3F := by decide +kernel
theorem witness_BufferRead_unwritten : (0 : Word).toNat < (State.resetOf 64).bufSize ∧
    (State.resetOf 64).buf.read 0 = none := by decide
theorem witness_BufferWrite_inRange : (63 : Word).toNat < (State.resetOf 64).bufSize ∧ 62 ≠ (63 : Word).toNat := by
  decide
theorem spanHolds_exactRoom : exactRoom.spanHolds [0xDE, 0xAD] :=
  ⟨by decide, by decide, by unfold State.holdsBytes; decide +kernel⟩
/-- The block of S5 with the second image byte not written yet. -/
def halfImage : State := { loaded 0x42 0x30 [0xDE] with len := 2 }

theorem witness_CommandsSeeTheLatestBufferWrite :
    halfImage.addr.toNat + halfImage.len.toNat ≤ halfImage.bufSize ∧
    ([0xDE, 0x55] : List Byte).length = halfImage.len.toNat ∧
    (∀ i, i < 2 → i ≠ 1 → halfImage.buf.read (0x30 + i) = ([0xDE, 0x55] : List Byte)[i]?) ∧
    ([0xDE, 0x55] : List Byte)[1]? = some ((0x55 : Word).extractLsb' 0 8) ∧
    (0x31 : Word).toNat = halfImage.addr.toNat + 1 ∧
    after (fun s => s.buf) (exec (.bufw 0x31 0x55) halfImage) = some [(0x30, 0xDE), (0x31, 0x55)] ∧
    halfImage.addr.toNat + halfImage.len.toNat + 16 ≤ halfImage.bufSize := by decide +kernel
theorem witness_CommandsSeeTheLatestBufferWrite_append : 15 < 16 ∧
    (0x41 : Word).toNat = exactRoom.addr.toNat + exactRoom.len.toNat + 15 ∧
    after (fun s => s.buf.read 0x41) (exec .dfuAppend exactRoom) = some (some 0xE6) := by decide +kernel
theorem witness_WrittenMarksLastUntilReset :
    (loaded 64 0 [0xDE]).buf.read 0 ≠ none ∧ after (fun s => s.buf.read 0)
      (step { loaded 64 0 [0xDE] with pending := [.reset] }) = some none := by decide +kernel
theorem witness_LittleEndian_indices : 3 < 4 ∧ (7 < 8 ∨ 8 + 4 ≤ 7) ∧ (12 < 8 ∨ 8 + 4 ≤ 12) := by decide
theorem witness_Reserved_bounds : 4 < (5 : Word).toNat ∧ 4 < (0xFFFFFFFF : Word).toNat := by decide
theorem witness_spanHolds_upToTheEnd : (ramp 60 4).spanHolds [60, 61, 62, 63] :=
  ⟨by decide, by decide, by unfold State.holdsBytes; decide +kernel⟩
theorem witness_CrcSpan_pastTheEnd :
    (ramp 60 5).bufSize < (ramp 60 5).addr.toNat + (ramp 60 5).len.toNat := by decide
theorem witness_CrcSpan_unwritten :
    ({ loaded 64 0 [0x00] with len := 2 } : State).addr.toNat + 2 ≤ 64 ∧ 1 < 2 ∧
      (loaded 64 0 [0x00]).buf.read 1 = none ∧ ∀ i, i < 1 → (loaded 64 0 [0x00]).buf.read (0 + i) ≠ none := by
  decide +kernel
theorem witness_CrcSpan_emptyAtTheEnd : (ramp 64 0).len = 0 ∧ (ramp 64 0).addr.toNat ≤ (ramp 64 0).bufSize := by decide
theorem witness_CrcDependsOnlyOnTheBytes : exactRoom.spanHolds [0xDE, 0xAD] ∧
    (loaded 64 0 [0xDE, 0xAD]).spanHolds [0xDE, 0xAD] ∧ exactRoom.acc = (loaded 64 0 [0xDE, 0xAD]).acc :=
  ⟨spanHolds_exactRoom, ⟨by decide, by decide, by unfold State.holdsBytes; decide +kernel⟩, by decide⟩
theorem witness_CrcDependsOnlyOnTheBytes_dataIn : (ramp 65 1).acc = (ramp 0 0).acc ∧
    (0x131 : Word).extractLsb' 0 8 = (0x31 : Word).extractLsb' 0 8 := by decide
theorem witness_ChainedSpans : Config.legalBufSize (ramp 60 4).bufSize ∧ (1 : Word).toNat + (3 : Word).toNat < 2 ^ 32 ∧
    State.spanHolds { ramp 60 4 with addr := 60, len := 1 + 3 } [60, 61, 62, 63] :=
  ⟨by decide, by decide, by decide, by decide, by unfold State.holdsBytes; decide +kernel⟩
theorem imageReady_exactRoom : exactRoom.imageReady [0xDE, 0xAD] :=
  ⟨by decide, by decide, by unfold State.holdsBytes; decide +kernel⟩
theorem witness_DfuAppend_noRoom : (loaded 0x41 0x30 [0xDE, 0xAD]).bufSize < 0x30 + 2 + 16 := by decide
theorem witness_DfuAppend_unwritten : 0 + 2 + 16 ≤ (loaded 64 0 [0xDE]).bufSize ∧
    (loaded 64 0 [0xDE]).buf.read 1 = none ∧ ∀ i, i < 1 → (loaded 64 0 [0xDE]).buf.read (0 + i) ≠ none := by
  decide +kernel
theorem witness_OutputFile : exactRoom.imageReady [0xDE, 0xAD] ∧ exactRoom.len.toNat + 16 < 2 ^ 32 :=
  ⟨imageReady_exactRoom, by decide⟩
theorem witness_EmptyImageSuffix : (State.resetOf 16).len = 0 ∧ (State.resetOf 16).addr.toNat + 16 ≤ 16 := by decide
theorem witness_EmptyImageSuffix_noRoom : (State.resetOf 15).len = 0 ∧ (State.resetOf 15).bufSize < 0 + 16 := by decide
theorem witness_SecondAppend : (loaded 64 0 [0xDE, 0xAD]).imageReady [0xDE, 0xAD] ∧
    (loaded 64 0 [0xDE, 0xAD]).len.toNat + 16 < 2 ^ 32 ∧ 0 + 2 + 32 ≤ (loaded 64 0 [0xDE, 0xAD]).bufSize ∧
    after State.len (exec .dfuAppend (loaded 64 0 [0xDE, 0xAD])) = some 18 :=
  ⟨⟨by decide, by decide, by unfold State.holdsBytes; decide +kernel⟩, by decide, by decide, by decide +kernel⟩
theorem witness_OutputCrcIsTheResidue : exactRoom.imageReady [0xDE, 0xAD] ∧ exactRoom.len.toNat + 16 < 2 ^ 32 ∧
    after State.len (exec .dfuAppend exactRoom) = some 18 :=
  ⟨imageReady_exactRoom, by decide, by decide +kernel⟩

/-- An image written with `loaded` is ready when its suffix fits. -/
theorem loaded_imageReady (n a : Nat) (bs : List Byte) (ha : a < 2 ^ 32) (hl : bs.length < 2 ^ 32)
    (hfit : a + bs.length + 16 ≤ n) : (loaded n a bs).imageReady bs := by
  have haddr : (loaded n a bs).addr.toNat = a := Nat.mod_eq_of_lt ha
  have hlen : (loaded n a bs).len.toNat = bs.length := Nat.mod_eq_of_lt hl
  refine ⟨by rw [haddr, hlen]; exact hfit, hlen.symm, fun j hj => ?_⟩
  rw [haddr]
  exact Memory.read_writeBytes_inside _ a bs hj

/-- The image of 2^32 - 16 zero bytes at address 0 of the greatest buffer: the one LEN that wraps (R181). -/
theorem witness_OutputCrcIsTheResidue_wrap : ∃ (s t : State) (image : List Byte), s.imageReady image ∧
    exec .dfuAppend s = .next t ∧ Config.legalBufSize s.bufSize ∧ 2 ^ 32 ≤ s.len.toNat + 16 := by
  obtain ⟨image, hlen⟩ : ∃ image : List Byte, image.length = 2 ^ 32 - 16 :=
    ⟨List.replicate (2 ^ 32 - 16) 0, List.length_replicate⟩
  have hready := loaded_imageReady (2 ^ 32) 0 image (by omega) (by omega) (by omega)
  refine ⟨_, _, image, hready, execDfuAppend_of_imageReady hready, ⟨?_, ?_⟩, ?_⟩
  · show 16 ≤ 2 ^ 32
    omega
  · show 2 ^ 32 ≤ 4294967296
    omega
  · rw [← hready.2.1, hlen]
    omega

end Sys2Proof.Tests
end

section
/-! The two outcomes of a step (00_scope.md R4): what a step does with the next event, which instructions can
stop at an unwritten byte, and that nothing else keeps a step from completing. -/

namespace Sys2Proof.Machine

/-! ### What a step does -/

/-- Everything a step can do: wait, reset the block, or run the instruction of the next transaction. -/
theorem step_cases (s : State) :
    (s.pending = [] ∧ step s = .next s) ∨
    (∃ rest, s.pending = .reset :: rest ∧
        step s = .next (State.afterResetEvent { s with pending := rest })) ∨
    (∃ t rest, s.pending = .transaction t :: rest ∧
        step s = exec (decode t) { s with pending := rest }) := by
  unfold step
  rcases s.fetch_cases with ⟨hpend, hfetch⟩ | ⟨e, rest, hpend, hfetch⟩
  · exact .inl ⟨hpend, by rw [hfetch]⟩
  · rw [hfetch]
    cases e with
    | reset => exact .inr (.inl ⟨rest, hpend, rfl⟩)
    | transaction t => exact .inr (.inr ⟨t, rest, hpend, rfl⟩)

/-! ### No transaction decodes to the WR_CTRL row (30_encoding.md R71, R75) -/

theorem decodeCommand_ne_wrCtrl (c d : Word) : decodeCommand c ≠ .wrCtrl d := by
  unfold decodeCommand
  split_ifs <;> simp

theorem decodeRegRead_ne_wrCtrl (x : BitVec 3) (d : Word) : decodeRegRead x ≠ .wrCtrl d := by
  unfold decodeRegRead
  split <;> simp

theorem decodeRegWrite_ne_wrCtrl (x : BitVec 3) (c d : Word) : decodeRegWrite x c ≠ .wrCtrl d := by
  unfold decodeRegWrite
  split
  · exact decodeCommand_ne_wrCtrl c d
  all_goals simp

theorem decode_ne_wrCtrl (t : Transaction) (d : Word) : decode t ≠ .wrCtrl d := by
  unfold decode
  split
  · exact decodeRegRead_ne_wrCtrl t.x d
  · exact decodeRegWrite_ne_wrCtrl t.x t.d d
  all_goals simp

/-! ### Which instructions can fault, and how -/

/-- The four rows whose meaning reads a buffer byte. -/
def readsBuffer (i : Instr) : Prop :=
  (∃ a, i = .bufr a) ∨ i = .crcSpan ∨ i = .crcCompute ∨ i = .dfuAppend

/-- The outcome is the model fault of a byte of `s` that is in range and unwritten (10_state.md R31). -/
def State.faultsUnwritten (s : State) (o : Host.Outcome State Fault Refusal) : Prop :=
  ∃ a, o = .fault (.unwritten a) ∧ a < s.bufSize ∧ s.buf.read a = none

theorem execBufr_next_or_fault (a : Word) (s : State) :
    (∃ t, execBufr a s = .next t) ∨ s.faultsUnwritten (execBufr a s) := by
  rcases execBufr_cases a s with ⟨_, -, -, hnext⟩ | ⟨-, hnext⟩ | ⟨hin, hnone, hfault⟩
  · exact .inl ⟨_, hnext⟩
  · exact .inl ⟨_, hnext⟩
  · exact .inr ⟨_, hfault, hin, hnone⟩

theorem execBufw_next (a d : Word) (s : State) : ∃ t, execBufw a d s = .next t := by
  rcases execBufw_cases a d s with ⟨-, hnext⟩ | ⟨-, hnext⟩ <;> exact ⟨_, hnext⟩

theorem accumulateSpan_next_or_fault (c : Word) (s : State) :
    (∃ t, accumulateSpan c s = .next t) ∨ s.faultsUnwritten (accumulateSpan c s) := by
  rcases accumulateSpan_cases c s with ⟨_, -, hnext⟩ | ⟨-, hnext⟩ | ⟨hfit, j, hj, hnone, -, hfault⟩
  · exact .inl ⟨_, hnext⟩
  · exact .inl ⟨_, hnext⟩
  · exact .inr ⟨_, hfault, by omega, hnone⟩

theorem execDfuAppend_next_or_fault (s : State) :
    (∃ t, execDfuAppend s = .next t) ∨ s.faultsUnwritten (execDfuAppend s) := by
  rcases execDfuAppend_cases s with ⟨_, -, hnext⟩ | ⟨-, hnext⟩ | ⟨hfit, j, hj, hnone, -, hfault⟩
  · exact .inl ⟨_, hnext⟩
  · exact .inl ⟨_, hnext⟩
  · exact .inr ⟨_, hfault, by omega, hnone⟩

/-- WR_CTRL is left out: its word can select a command that reads the buffer, and no transaction decodes to it. -/
theorem exec_next_or_fault {i : Instr} (hi : ∀ d, i ≠ .wrCtrl d) (s : State) :
    (∃ t, exec i s = .next t) ∨ (readsBuffer i ∧ s.faultsUnwritten (exec i s)) := by
  cases i with
  | wrCtrl d => exact absurd rfl (hi d)
  | bufr a => exact (execBufr_next_or_fault a s).imp_right fun h => ⟨.inl ⟨a, rfl⟩, h⟩
  | bufw a d => exact .inl (execBufw_next a d s)
  | crcSpan =>
    exact (accumulateSpan_next_or_fault s.acc s).imp_right fun h => ⟨.inr (.inl rfl), h⟩
  | crcCompute =>
    exact (accumulateSpan_next_or_fault crcInit s).imp_right fun h => ⟨.inr (.inr (.inl rfl)), h⟩
  | dfuAppend =>
    exact (execDfuAppend_next_or_fault s).imp_right fun h => ⟨.inr (.inr (.inr rfl)), h⟩
  | rdCtrl | rdStatus | rdAddr | rdLen | rdAcc | rdResult | rdDataIn | rdR7 => exact .inl ⟨_, rfl⟩
  | wrStatus | wrAddr | wrLen | wrAcc | wrResult | wrDataIn | wrR7 => exact .inl ⟨_, rfl⟩
  | nop | crcInit | cmdRsvd5 | cmdRsvd6 | cmdRsvd7 | cmdRsvdOther => exact .inl ⟨_, rfl⟩

theorem State.nextIs_of_readsBuffer {s : State} {t : Transaction} {rest : List HostEvent}
    (hpend : s.pending = .transaction t :: rest) (hreads : readsBuffer (decode t)) :
    (∃ w, s.nextIs (.bufr w)) ∨ s.nextIs .crcSpan ∨ s.nextIs .crcCompute ∨ s.nextIs .dfuAppend := by
  rcases hreads with ⟨a, hdec⟩ | hdec | hdec | hdec
  · exact .inl ⟨a, t, rest, hpend, hdec⟩
  · exact .inr (.inl ⟨t, rest, hpend, hdec⟩)
  · exact .inr (.inr (.inl ⟨t, rest, hpend, hdec⟩))
  · exact .inr (.inr (.inr ⟨t, rest, hpend, hdec⟩))

/-- Settles O13, by the events a step can take and, for a transaction, the outcomes of its instruction; moving the
queue on changes neither BUF_SIZE nor the buffer. -/
theorem stepCompletesOrReadsAnUnwrittenByte : Obligations.StepCompletesOrReadsAnUnwrittenByte := by
  intro s
  rcases step_cases s with ⟨-, hstep⟩ | ⟨rest, -, hstep⟩ | ⟨t, rest, hpend, hstep⟩
  · exact .inl ⟨_, hstep⟩
  · exact .inl ⟨_, hstep⟩
  · rw [hstep]
    rcases exec_next_or_fault (decode_ne_wrCtrl t) { s with pending := rest } with
      hnext | ⟨hreads, a, hfault, hin, hnone⟩
    · exact .inl hnext
    · exact .inr ⟨a, hfault, hin, hnone, State.nextIs_of_readsBuffer hpend hreads⟩

end Sys2Proof.Machine
end

section
/-! The decoder and the opcode table (30_encoding.md R71, R74, R75): a row matches a packed word when it matches
each field of its record; the command rows look at D, and only under the selector of WR_CTRL; the selector rows look
at K and X alone. -/

namespace Sys2Proof

/-! ### A packed word is its four fields (R71) -/

/-- The fields of R71 stand side by side from bit 0 to bit 68. -/
theorem Transaction.pack_unpack (T : Packed) : (Transaction.unpack T).pack = T := by
  have hkx : T.extractLsb' 67 2 ++ T.extractLsb' 64 3 = T.extractLsb' 64 5 :=
    BitVec.extractLsb'_append_extractLsb'_eq_extractLsb' rfl
  have hkxa : T.extractLsb' 64 5 ++ T.extractLsb' 32 32 = T.extractLsb' 32 37 :=
    BitVec.extractLsb'_append_extractLsb'_eq_extractLsb' rfl
  have hkxad : T.extractLsb' 32 37 ++ T.extractLsb' 0 32 = T.extractLsb' 0 69 :=
    BitVec.extractLsb'_append_extractLsb'_eq_extractLsb' rfl
  calc (Transaction.unpack T).pack
      = T.extractLsb' 67 2 ++ T.extractLsb' 64 3 ++ T.extractLsb' 32 32 ++ T.extractLsb' 0 32 := rfl
    _ = T.extractLsb' 0 69 := by rw [hkx, hkxa, hkxad]
    _ = T := BitVec.extractLsb'_eq_self

theorem Transaction.unpack_inj {T U : Packed} : Transaction.unpack T = Transaction.unpack U ↔ T = U :=
  (Function.LeftInverse.injective Transaction.pack_unpack).eq_iff

/-- A mask acts on each field by itself. -/
theorem Transaction.unpack_and (T U : Packed) :
    Transaction.unpack (T &&& U) =
      ⟨(unpack T).k &&& (unpack U).k, (unpack T).x &&& (unpack U).x,
        (unpack T).a &&& (unpack U).a, (unpack T).d &&& (unpack U).d⟩ := by
  simp only [Transaction.unpack, BitVec.extractLsb'_and]

/-! ### What a row matches -/

/-- `r` matches the selector K, X. -/
def OpcodeRow.matchesSelector (r : OpcodeRow) (k : BitVec 2) (x : BitVec 3) : Bool :=
  k &&& (Transaction.unpack r.mask).k == (Transaction.unpack r.pattern).k &&
    x &&& (Transaction.unpack r.mask).x == (Transaction.unpack r.pattern).x

/-- `r` matches the buffer address A. -/
def OpcodeRow.matchesA (r : OpcodeRow) (a : Word) : Bool :=
  a &&& (Transaction.unpack r.mask).a == (Transaction.unpack r.pattern).a

/-- `r` matches the data D, which under the selector of WR_CTRL is the command word. -/
def OpcodeRow.matchesD (r : OpcodeRow) (d : Word) : Bool :=
  d &&& (Transaction.unpack r.mask).d == (Transaction.unpack r.pattern).d

theorem OpcodeRow.matchesWord_eq (r : OpcodeRow) (T : Packed) :
    r.matchesWord T =
      (r.matchesSelector (Transaction.unpack T).k (Transaction.unpack T).x &&
        r.matchesA (Transaction.unpack T).a && r.matchesD (Transaction.unpack T).d) := by
  rw [Bool.eq_iff_iff]
  simp only [matchesWord, matchesSelector, matchesA, matchesD, Bool.and_eq_true, beq_iff_eq]
  rw [← Transaction.unpack_inj, Transaction.unpack_and]
  cases Transaction.unpack r.pattern
  simp only [Transaction.mk.injEq, and_assoc]

/-- A row whose mask and pattern leave A free matches it whatever it is. -/
theorem OpcodeRow.matchesA_of_free {r : OpcodeRow}
    (hfree : (Transaction.unpack r.mask).a = 0 ∧ (Transaction.unpack r.pattern).a = 0) (a : Word) :
    r.matchesA a = true := by
  simp [matchesA, hfree]

theorem OpcodeRow.matchesD_of_free {r : OpcodeRow}
    (hfree : (Transaction.unpack r.mask).d = 0 ∧ (Transaction.unpack r.pattern).d = 0) (d : Word) :
    r.matchesD d = true := by
  simp [matchesD, hfree]

/-! ### The two tables -/

/-- The rows of the command table (R75), in order. -/
def commandRows : List OpcodeRow := rowsInOrder.take 9

/-- The rows of the selector table (R74), in order. -/
def selectorRows : List OpcodeRow := rowsInOrder.drop 9

theorem rowsInOrder_eq_append : rowsInOrder = commandRows ++ selectorRows :=
  (List.take_append_drop 9 rowsInOrder).symm

theorem commandRows_free_a : ∀ r ∈ commandRows,
    (Transaction.unpack r.mask).a = 0 ∧ (Transaction.unpack r.pattern).a = 0 := by decide

theorem selectorRows_free_a : ∀ r ∈ selectorRows,
    (Transaction.unpack r.mask).a = 0 ∧ (Transaction.unpack r.pattern).a = 0 := by decide

theorem selectorRows_free_d : ∀ r ∈ selectorRows,
    (Transaction.unpack r.mask).d = 0 ∧ (Transaction.unpack r.pattern).d = 0 := by decide

/-- The selector of every command row is that of WR_CTRL. -/
theorem commandRows_matchesSelector : ∀ r ∈ commandRows, ∀ k x,
    r.matchesSelector k x = decide (k = 0b01#2 ∧ x = 0b000#3) := by decide

/-- Only a transaction with the selector of WR_CTRL is looked up in the command table, by its D. -/
theorem find?_commandRows (T : Packed) :
    commandRows.find? (·.matchesWord T) =
      if (Transaction.unpack T).k = 0b01#2 ∧ (Transaction.unpack T).x = 0b000#3 then
        commandRows.find? (·.matchesD (Transaction.unpack T).d)
      else none := by
  have hrow : ∀ r ∈ commandRows, r.matchesWord T =
      (decide ((Transaction.unpack T).k = 0b01#2 ∧ (Transaction.unpack T).x = 0b000#3) &&
        r.matchesD (Transaction.unpack T).d) := by
    intro r hr
    rw [r.matchesWord_eq, commandRows_matchesSelector r hr,
      OpcodeRow.matchesA_of_free (commandRows_free_a r hr), Bool.and_true]
  rw [List.find?_congr hrow]
  split_ifs with hsel
  · simp only [hsel, and_self, decide_true, Bool.true_and]
  · simp [hsel]

/-- The selector table is looked up by K and X alone. -/
theorem find?_selectorRows (T : Packed) :
    selectorRows.find? (·.matchesWord T) =
      selectorRows.find? (·.matchesSelector (Transaction.unpack T).k (Transaction.unpack T).x) :=
  List.find?_congr fun r hr => by
    rw [r.matchesWord_eq, OpcodeRow.matchesA_of_free (selectorRows_free_a r hr),
      OpcodeRow.matchesD_of_free (selectorRows_free_d r hr), Bool.and_true, Bool.and_true]

/-! ### The decoder follows each table -/

/-- The data field of a row's bits: the selector stands above it. -/
theorem unpack_d_selector_add (sel d : Nat) :
    (Transaction.unpack (BitVec.ofNat 69 (sel * 2 ^ 64 + d))).d = BitVec.ofNat 32 d := by
  apply BitVec.eq_of_toNat_eq
  rw [Transaction.unpack, BitVec.extractLsb'_toNat, BitVec.toNat_ofNat, BitVec.toNat_ofNat,
    Nat.shiftRight_zero]
  omega

theorem commandRow_matchesD (mnemonic : String) (c dMask : Nat) (d : Word) :
    (commandRow mnemonic c dMask).matchesD d = (d &&& BitVec.ofNat 32 dMask == BitVec.ofNat 32 c) := by
  simp only [OpcodeRow.matchesD, commandRow, unpack_d_selector_add]

/-- A row of one command word, its mask on the whole of D. -/
theorem commandRow_matchesD_exact (mnemonic : String) (c : Nat) (d : Word) :
    (commandRow mnemonic c 0xFFFFFFFF).matchesD d = (d == BitVec.ofNat 32 c) := by
  rw [commandRow_matchesD, show BitVec.ofNat 32 0xFFFFFFFF = BitVec.allOnes 32 from rfl,
    BitVec.and_allOnes]

/-- The catch-all row, its mask on no bit of D. -/
theorem commandRow_matchesD_catchAll (mnemonic : String) (d : Word) :
    (commandRow mnemonic 0 0).matchesD d = true := by
  simp [commandRow_matchesD]

/-- The eight words of R75 have a row each; every other word falls through to the catch-all. -/
theorem find?_commandRows_matchesD (d : Word) :
    commandRows.find? (·.matchesD d) = some (decodeCommand d).row := by
  unfold decodeCommand
  split_ifs with h0 h1 h2 h3 h4 h5 h6 h7
  case neg =>
    simp_all [commandRows, rowsInOrder, Instr.row, commandRow_matchesD_exact, commandRow_matchesD_catchAll]
  all_goals subst d; rfl

theorem find?_selectorRows_regRead : ∀ x : BitVec 3,
    selectorRows.find? (·.matchesSelector 0b00#2 x) = some (decodeRegRead x).row := by decide

/-- Which row a register write belongs to does not depend on its data, unless it is a command. -/
theorem row_decodeRegWrite {x : BitVec 3} (hx : x ≠ 0b000#3) (d : Word) :
    (decodeRegWrite x d).row = (decodeRegWrite x 0).row := by
  unfold decodeRegWrite
  split
  case h_1 h => exact absurd (BitVec.eq_of_toNat_eq h) hx
  all_goals rfl

theorem find?_selectorRows_regWrite : ∀ x : BitVec 3, x ≠ 0b000#3 →
    selectorRows.find? (·.matchesSelector 0b01#2 x) = some (decodeRegWrite x 0).row := by decide

theorem find?_selectorRows_bufr : ∀ x : BitVec 3,
    selectorRows.find? (·.matchesSelector 0b10#2 x) = some (Instr.bufr 0).row := by decide

theorem find?_selectorRows_bufw : ∀ x : BitVec 3,
    selectorRows.find? (·.matchesSelector 0b11#2 x) = some (Instr.bufw 0 0).row := by decide

/-- Outside the commands the selector picks the row, by the kinds of K as the decoder takes them. -/
theorem find?_selectorRows_matchesSelector (t : Transaction) (hsel : ¬(t.k = 0b01#2 ∧ t.x = 0b000#3)) :
    selectorRows.find? (·.matchesSelector t.k t.x) = some (decode t).row := by
  obtain ⟨k, x, a, d⟩ := t
  have hkinds : ∀ k : BitVec 2, k = 0b00#2 ∨ k = 0b01#2 ∨ k = 0b10#2 ∨ k = 0b11#2 := by decide
  obtain rfl | rfl | rfl | rfl := hkinds k
  · exact find?_selectorRows_regRead x
  · have hx : x ≠ 0b000#3 := fun h => hsel ⟨rfl, h⟩
    exact (find?_selectorRows_regWrite x hx).trans (congrArg some (row_decodeRegWrite hx d).symm)
  · exact find?_selectorRows_bufr x
  · exact find?_selectorRows_bufw x

theorem decode_of_wrCtrl_selector {t : Transaction} (hk : t.k = 0b01#2) (hx : t.x = 0b000#3) :
    decode t = decodeCommand t.d := by
  simp [decode, decodeRegWrite, hk, hx]

/-- Settles O3: under the selector of WR_CTRL a command row matches, the one the decoder takes; under any other no
command row matches, and the first selector row that does is the decoder's. -/
theorem decodeFollowsOpcodeTable : Obligations.DecodeFollowsOpcodeTable := by
  intro T
  rw [firstRow, rowsInOrder_eq_append, List.find?_append, find?_commandRows]
  split_ifs with hsel
  · obtain ⟨hk, hx⟩ := hsel
    rw [find?_commandRows_matchesD, decode_of_wrCtrl_selector hk hx, Option.some_or]
  · rw [find?_selectorRows, find?_selectorRows_matchesSelector _ hsel, Option.none_or]

end Sys2Proof
end

section
/-! The host interface (40_host_interface.md): the register reads and writes, the buffer accesses, the commands that
WR_CTRL selects, and the conditions under which an error flag is raised (60_exceptions.md R201, R202). -/

namespace Sys2Proof.Machine

/-! ### The shared operations, one outcome at a time -/

theorem accumulateSpan_of_spanHolds {s : State} {bs : List Byte} (c : Word) (h : s.spanHolds bs) :
    accumulateSpan c s = .next { s with acc := crcFold c bs, response := none } := by
  obtain ⟨hfit, hlen, hbytes⟩ := h
  rcases accumulateSpan_cases c s with
    ⟨bs', ⟨-, hlen', hbytes'⟩, hnext⟩ | ⟨hpast, -⟩ | ⟨-, j, hj, hnone, -⟩
  · rw [hnext, State.holdsBytes_unique hbytes' hbytes (hlen'.trans hlen.symm)]
  · omega
  · exact absurd hnone (State.holdsBytes_written hbytes (hlen ▸ hj))

theorem accumulateSpan_of_pastEnd {s : State} (c : Word) (h : s.bufSize < s.addr.toNat + s.len.toNat) :
    accumulateSpan c s = .next { s with errRange := true, response := none } := by
  rcases accumulateSpan_cases c s with ⟨_, ⟨hfit, -⟩, -⟩ | ⟨-, hnext⟩ | ⟨hfit, -⟩
  · omega
  · exact hnext
  · omega

theorem execDfuAppend_of_noRoom {s : State} (h : s.bufSize < s.addr.toNat + s.len.toNat + 16) :
    execDfuAppend s = .next { s with errRange := true, response := none } := by
  rcases execDfuAppend_cases s with ⟨_, ⟨hfit, -⟩, -⟩ | ⟨-, hnext⟩ | ⟨hfit, -⟩
  · omega
  · exact hnext
  · omega

theorem execBufr_of_outOfRange {a : Word} {s : State} (h : s.bufSize ≤ a.toNat) :
    execBufr a s = .next { s with errRange := true, response := some 0 } := by
  rcases execBufr_cases a s with ⟨_, hin, -⟩ | ⟨-, hnext⟩ | ⟨hin, -⟩
  · omega
  · exact hnext
  · omega

theorem execBufr_of_written {a : Word} {s : State} {b : Byte} (hin : a.toNat < s.bufSize)
    (hread : s.buf.read a.toNat = some b) :
    execBufr a s = .next { s with response := some (b.setWidth 32) } := by
  rcases execBufr_cases a s with ⟨b', -, hread', hnext⟩ | ⟨hout, -⟩ | ⟨-, hnone, -⟩
  · rw [hnext, Option.some.inj (hread'.symm.trans hread)]
  · omega
  · exact absurd (hread.symm.trans hnone) (Option.some_ne_none b)

theorem execBufr_of_unwritten {a : Word} {s : State} (hin : a.toNat < s.bufSize)
    (hnone : s.buf.read a.toNat = none) : execBufr a s = .fault (.unwritten a.toNat) := by
  rcases execBufr_cases a s with ⟨b, -, hread, -⟩ | ⟨hout, -⟩ | ⟨-, -, hfault⟩
  · exact absurd (hread.symm.trans hnone) (Option.some_ne_none b)
  · omega
  · exact hfault

theorem execBufw_of_outOfRange {a d : Word} {s : State} (h : s.bufSize ≤ a.toNat) :
    execBufw a d s = .next { s with errRange := true, response := none } := by
  rcases execBufw_cases a d s with ⟨hin, -⟩ | ⟨-, hnext⟩
  · omega
  · exact hnext

theorem execBufw_of_inRange {a d : Word} {s : State} (h : a.toNat < s.bufSize) :
    execBufw a d s = .next { s with
      buf := s.buf.write a.toNat (d.extractLsb' 0 8), response := none } := by
  rcases execBufw_cases a d s with ⟨-, hnext⟩ | ⟨hout, -⟩
  · exact hnext
  · omega

/-- The mask of a WR_STATUS is the two low bits of D (30_encoding.md R73). -/
theorem clearMask_getLsbD (d : Word) {j : Nat} (hj : j < 2) : (clearMask d).getLsbD j = d.getLsbD j := by
  simp [clearMask, hj]

theorem State.clearFlags_clearMask (s : State) (d : Word) :
    s.clearFlags (clearMask d) = { s with
      errCmd := s.errCmd && !d.getLsbD 0, errRange := s.errRange && !d.getLsbD 1 } := by
  have hflag : ∀ bit flag : Bool, (if bit then false else flag) = (flag && !bit) := by decide
  rw [State.clearFlags, clearMask_getLsbD d (by decide), clearMask_getLsbD d (by decide), hflag, hflag]

theorem exec_wrStatus (d : Word) (s : State) :
    exec (.wrStatus d) s = .next { s with
      errCmd := s.errCmd && !d.getLsbD 0, errRange := s.errRange && !d.getLsbD 1, response := none } := by
  show Host.Outcome.next (s.clearFlags (clearMask d)).returnsNothing = _
  rw [State.clearFlags_clearMask, State.returnsNothing]

/-! ### The command words (30_encoding.md R75) -/

theorem commandWord_cases (d : Word) : d = 0 ∨ d = 1 ∨ d = 2 ∨ d = 3 ∨ d = 4 ∨ 4 < d.toNat := by
  bv_omega

/-- WR_CTRL and the row its word decodes to are the same branching over the command word (R109). -/
theorem exec_wrCtrl (d : Word) (s : State) : exec (.wrCtrl d) s = exec (decodeCommand d) s := by
  show execWrCtrl d s = _
  unfold execWrCtrl decodeCommand
  split_ifs <;> rfl

theorem execWrCtrl_of_reserved {d : Word} (h : 4 < d.toNat) (s : State) :
    execWrCtrl d s = reservedCommand s := by
  have hne : d ≠ 0 ∧ d ≠ 1 ∧ d ≠ 2 ∧ d ≠ 3 ∧ d ≠ 4 := by bv_omega
  obtain ⟨h0, h1, h2, h3, h4⟩ := hne
  rw [execWrCtrl, if_neg h0, if_neg h1, if_neg h2, if_neg h3, if_neg h4]

/-- Every instruction of a reserved word does the one thing of R201. -/
theorem exec_of_reservedWord {i : Instr} (h : reservedWord i) (s : State) :
    exec i s = .next { s with errCmd := true, response := none } := by
  obtain rfl | rfl | rfl | ⟨d, rfl⟩ | ⟨d, rfl, hd⟩ := h
  · rfl
  · rfl
  · rfl
  · rfl
  · exact execWrCtrl_of_reserved hd s

theorem reservedWord_cmdRsvdOther (d : Word) : reservedWord (.cmdRsvdOther d) :=
  .inr (.inr (.inr (.inl ⟨d, rfl⟩)))

theorem reservedWord_wrCtrl {d : Word} (h : 4 < d.toNat) : reservedWord (.wrCtrl d) :=
  .inr (.inr (.inr (.inr ⟨d, rfl, h⟩)))

/-! ### When a flag rises (60_exceptions.md R201, R202) -/

/-- The outcome shows a flag set only where `s` had it set already, but for ERR_CMD under `cmd` and ERR_RANGE under
`range`. -/
def State.raisesOnlyUnder (s : State) (cmd range : Prop) (o : Host.Outcome State Fault Refusal) : Prop :=
  ∀ t, o = .next t →
    (t.errCmd = true → s.errCmd = true ∨ cmd) ∧ (t.errRange = true → s.errRange = true ∨ range)

section
variable {s t : State} {cmd range : Prop}

theorem State.raisesOnlyUnder_next (hcmd : t.errCmd = s.errCmd ∨ cmd)
    (hrange : t.errRange = s.errRange ∨ range) : s.raisesOnlyUnder cmd range (.next t) := by
  rintro _ ⟨⟩
  exact ⟨fun hset => hcmd.imp_left fun hkept => hkept.symm.trans hset,
    fun hset => hrange.imp_left fun hkept => hkept.symm.trans hset⟩

theorem State.raisesOnlyUnder_fault (f : Fault) : s.raisesOnlyUnder cmd range (.fault f) := by
  rintro _ ⟨⟩

theorem accumulateSpan_raisesOnlyUnder (c : Word) (h : s.bufSize < s.addr.toNat + s.len.toNat → range) :
    s.raisesOnlyUnder cmd range (accumulateSpan c s) := by
  rcases accumulateSpan_cases c s with ⟨_, -, hnext⟩ | ⟨hpast, hnext⟩ | ⟨-, _, -, -, -, hfault⟩
  · rw [hnext]; exact State.raisesOnlyUnder_next (.inl rfl) (.inl rfl)
  · rw [hnext]; exact State.raisesOnlyUnder_next (.inl rfl) (.inr (h hpast))
  · rw [hfault]; exact State.raisesOnlyUnder_fault _

theorem execDfuAppend_raisesOnlyUnder (h : s.bufSize < s.addr.toNat + s.len.toNat + 16 → range) :
    s.raisesOnlyUnder cmd range (execDfuAppend s) := by
  rcases execDfuAppend_cases s with ⟨_, -, hnext⟩ | ⟨hroom, hnext⟩ | ⟨-, _, -, -, -, hfault⟩
  · rw [hnext]; exact State.raisesOnlyUnder_next (.inl rfl) (.inl rfl)
  · rw [hnext]; exact State.raisesOnlyUnder_next (.inl rfl) (.inr (h hroom))
  · rw [hfault]; exact State.raisesOnlyUnder_fault _

theorem execBufr_raisesOnlyUnder {a : Word} (h : s.bufSize ≤ a.toNat → range) :
    s.raisesOnlyUnder cmd range (execBufr a s) := by
  rcases execBufr_cases a s with ⟨_, -, -, hnext⟩ | ⟨hout, hnext⟩ | ⟨-, -, hfault⟩
  · rw [hnext]; exact State.raisesOnlyUnder_next (.inl rfl) (.inl rfl)
  · rw [hnext]; exact State.raisesOnlyUnder_next (.inl rfl) (.inr (h hout))
  · rw [hfault]; exact State.raisesOnlyUnder_fault _

theorem execBufw_raisesOnlyUnder {a d : Word} (h : s.bufSize ≤ a.toNat → range) :
    s.raisesOnlyUnder cmd range (execBufw a d s) := by
  rcases execBufw_cases a d s with ⟨-, hnext⟩ | ⟨hout, hnext⟩
  · rw [hnext]; exact State.raisesOnlyUnder_next (.inl rfl) (.inl rfl)
  · rw [hnext]; exact State.raisesOnlyUnder_next (.inl rfl) (.inr (h hout))

/-- A WR_STATUS only clears. -/
theorem exec_wrStatus_raisesOnlyUnder (d : Word) : s.raisesOnlyUnder cmd range (exec (.wrStatus d) s) := by
  rw [exec_wrStatus]
  rintro _ ⟨⟩
  exact ⟨fun hset => .inl (Bool.and_elim_left hset), fun hset => .inl (Bool.and_elim_left hset)⟩

theorem exec_raisesOnlyUnder_of_reservedWord {i : Instr} (h : reservedWord i) :
    s.raisesOnlyUnder (reservedWord i) range (exec i s) := by
  rw [exec_of_reservedWord h]
  exact State.raisesOnlyUnder_next (.inr h) (.inl rfl)

/-- A WR_CTRL raises what the command its word selects raises. -/
theorem exec_wrCtrl_raisesOnlyUnder (d : Word) (s : State) :
    s.raisesOnlyUnder (reservedWord (.wrCtrl d)) (rangeErrorCondition (.wrCtrl d) s)
      (exec (.wrCtrl d) s) := by
  obtain rfl | rfl | rfl | rfl | rfl | hd := commandWord_cases d
  · exact State.raisesOnlyUnder_next (.inl rfl) (.inl rfl)
  · exact State.raisesOnlyUnder_next (.inl rfl) (.inl rfl)
  · exact accumulateSpan_raisesOnlyUnder s.acc fun hpast => .inl ⟨.inr (.inr (.inl rfl)), hpast⟩
  · exact accumulateSpan_raisesOnlyUnder crcInit fun hpast => .inl ⟨.inr (.inr (.inr rfl)), hpast⟩
  · exact execDfuAppend_raisesOnlyUnder fun hroom => .inr (.inl ⟨.inr rfl, hroom⟩)
  · exact exec_raisesOnlyUnder_of_reservedWord (reservedWord_wrCtrl hd)

end

/-- Row by row: a flag rises only under the condition the spec gives for it. -/
theorem exec_raisesOnlyUnder (i : Instr) (s : State) :
    s.raisesOnlyUnder (reservedWord i) (rangeErrorCondition i s) (exec i s) := by
  cases i with
  | wrCtrl d => exact exec_wrCtrl_raisesOnlyUnder d s
  | wrStatus d => exact exec_wrStatus_raisesOnlyUnder d
  | bufr a => exact execBufr_raisesOnlyUnder fun hout => .inr (.inr (.inl ⟨a, rfl, hout⟩))
  | bufw a d => exact execBufw_raisesOnlyUnder fun hout => .inr (.inr (.inr ⟨a, d, rfl, hout⟩))
  | crcSpan => exact accumulateSpan_raisesOnlyUnder s.acc fun hpast => .inl ⟨.inl rfl, hpast⟩
  | crcCompute =>
    exact accumulateSpan_raisesOnlyUnder crcInit fun hpast => .inl ⟨.inr (.inl rfl), hpast⟩
  | dfuAppend => exact execDfuAppend_raisesOnlyUnder fun hroom => .inr (.inl ⟨.inl rfl, hroom⟩)
  | cmdRsvd5 => exact exec_raisesOnlyUnder_of_reservedWord (.inl rfl)
  | cmdRsvd6 => exact exec_raisesOnlyUnder_of_reservedWord (.inr (.inl rfl))
  | cmdRsvd7 => exact exec_raisesOnlyUnder_of_reservedWord (.inr (.inr (.inl rfl)))
  | cmdRsvdOther d => exact exec_raisesOnlyUnder_of_reservedWord (reservedWord_cmdRsvdOther d)
  | rdCtrl | rdStatus | rdAddr | rdLen | rdAcc | rdResult | rdDataIn | rdR7 =>
    exact State.raisesOnlyUnder_next (.inl rfl) (.inl rfl)
  | wrAddr | wrLen | wrAcc | wrResult | wrDataIn | wrR7 | nop | crcInit =>
    exact State.raisesOnlyUnder_next (.inl rfl) (.inl rfl)

/-- Four of the five range conditions have no effect but the flag; a BUFR also returns 0 (R202). -/
theorem exec_of_rangeErrorCondition {i : Instr} {s : State} (h : rangeErrorCondition i s)
    (hbufr : ∀ a, i ≠ .bufr a) : exec i s = .next { s with errRange := true, response := none } := by
  obtain ⟨rfl | rfl | rfl | rfl, hpast⟩ | ⟨rfl | rfl, hroom⟩ | ⟨a, rfl, -⟩ | ⟨a, d, rfl, hout⟩ := h
  · exact accumulateSpan_of_pastEnd s.acc hpast
  · exact accumulateSpan_of_pastEnd crcInit hpast
  · exact accumulateSpan_of_pastEnd s.acc hpast
  · exact accumulateSpan_of_pastEnd crcInit hpast
  · exact execDfuAppend_of_noRoom hroom
  · exact execDfuAppend_of_noRoom hroom
  · exact absurd rfl (hbufr a)
  · exact execBufw_of_outOfRange hout

/-- The instructions with a range condition are other rows than the reserved ones, and of a WR_CTRL the words 2, 3
and 4. -/
theorem not_reservedWord_of_rangeErrorCondition {i : Instr} {s : State} (h : rangeErrorCondition i s) :
    ¬ reservedWord i := by
  obtain ⟨rfl | rfl | rfl | rfl, -⟩ | ⟨rfl | rfl, -⟩ | ⟨a, rfl, -⟩ | ⟨a, d, rfl, -⟩ := h
  all_goals simp [reservedWord]

/-- Settles O25: what each condition does is said row by row, and a flag that was clear and is set in the next state
can only have risen under its condition. -/
theorem errorsAreRaisedExactlyWhenStated : Obligations.ErrorsAreRaisedExactlyWhenStated := by
  intro i s
  refine ⟨fun h => exec_of_reservedWord h s, exec_of_rangeErrorCondition, ?_, ?_, ?_, ?_⟩
  · rintro a rfl hout
    exact execBufr_of_outOfRange hout
  · intro t hnext hclear hset
    exact ((exec_raisesOnlyUnder i s t hnext).1 hset).resolve_left (Bool.eq_false_iff.mp hclear)
  · intro t hnext hclear hset
    exact ((exec_raisesOnlyUnder i s t hnext).2 hset).resolve_left (Bool.eq_false_iff.mp hclear)
  · rintro ⟨hreserved, hrange⟩
    exact not_reservedWord_of_rangeErrorCondition hrange hreserved

/-! ### Buffer accesses -/

/-- Settles O26: the three cases of BUFR; K = 0b10 decodes without looking at X or D. -/
theorem bufferReadReturnsTheByte : Obligations.BufferReadReturnsTheByte := by
  intro s x a d
  exact ⟨rfl, execBufr_of_outOfRange, fun _ => execBufr_of_written, execBufr_of_unwritten⟩

/-- Settles O27: the buffer in range is the old one with one byte written, and a write is read back at its own
address alone. -/
theorem bufferWriteStoresTheByte : Obligations.BufferWriteStoresTheByte := by
  intro s x a d
  refine ⟨rfl, execBufw_of_outOfRange, fun hin => ⟨_, execBufw_of_inRange hin, ?_, ?_⟩⟩
  · exact Memory.read_write_same _ _ _
  · exact fun a' hne => Memory.read_write_other _ _ hne

/-! ### Commands -/

/-- Settles O32: the row a word above 4 decodes to has the outcome of the WR_CTRL with that word, which is reserved,
and so are the four rows. -/
theorem reservedCommandWordsRaiseErrCmd : Obligations.ReservedCommandWordsRaiseErrCmd := by
  intro s
  refine ⟨fun a d hd => ?_, exec_of_reservedWord (.inl rfl) s, exec_of_reservedWord (.inr (.inl rfl)) s,
    exec_of_reservedWord (.inr (.inr (.inl rfl))) s,
    fun d => exec_of_reservedWord (reservedWord_cmdRsvdOther d) s⟩
  rw [decode_of_wrCtrl_selector rfl rfl, ← exec_wrCtrl]
  exact exec_of_reservedWord (reservedWord_wrCtrl hd) s

/-- Settles O33: a WR_CTRL has the outcome of the command row its word decodes to, and each word's row is known. -/
theorem writeCtrlRunsTheSelectedCommand : Obligations.WriteCtrlRunsTheSelectedCommand := by
  intro s a
  refine ⟨fun d => ?_, exec_wrCtrl 0 s, exec_wrCtrl 1 s, fun bs hbs => ⟨?_, ?_⟩, exec_wrCtrl 4 s,
    fun d hd => exec_of_reservedWord (reservedWord_wrCtrl hd) s⟩
  · rw [decode_of_wrCtrl_selector rfl rfl, exec_wrCtrl]
  · exact (exec_wrCtrl 2 s).trans (accumulateSpan_of_spanHolds s.acc hbs)
  · exact (exec_wrCtrl 3 s).trans (accumulateSpan_of_spanHolds crcInit hbs)

/-! ### Register reads and writes -/

/-- Settles O17: K = 0b00 and a closed X fix the row, whatever A and D are, and each read only answers. -/
theorem registerReadsReturnTheirValue : Obligations.RegisterReadsReturnTheirValue := by
  intro s a d
  exact ⟨⟨rfl, rfl⟩, ⟨rfl, rfl⟩, ⟨rfl, rfl⟩, ⟨rfl, rfl⟩, ⟨rfl, rfl⟩, ⟨rfl, rfl⟩, ⟨rfl, rfl⟩, ⟨rfl, rfl⟩⟩

/-- Settles O18: K = 0b01 and a closed X other than 0 fix the row; each write stores D whole or does nothing, and the
value a CRC_INIT stores is 0xFFFFFFFF. -/
theorem registerWritesStoreOrAreIgnored : Obligations.RegisterWritesStoreOrAreIgnored := by
  refine ⟨fun s a d => ?_, fun s => ?_⟩
  · exact ⟨⟨rfl, rfl⟩, ⟨rfl, rfl⟩, ⟨rfl, rfl⟩, ⟨rfl, rfl⟩, ⟨rfl, rfl⟩⟩
  · rfl

/-- Settles O19: the two bits of the mask are those of D, and clearing is `and not` on each flag. -/
theorem writeStatusClearsSelectedFlags : Obligations.WriteStatusClearsSelectedFlags :=
  fun s _ d => ⟨rfl, exec_wrStatus d s⟩

/-! ### NOP and CRC_INIT -/

theorem exec_crcInit (s : State) : exec .crcInit s = .next { s with acc := crcInit, response := none } := rfl

/-- The initial accumulator and the final XOR cancel (41_crc32_engine.md R144). -/
theorem crcFinish_crcInit : crcFinish crcInit = 0 := BitVec.xor_self

/-- Settles O31: the state after a CRC_INIT holds the initial accumulator and returns nothing, so RESULT reads 0 and
a second CRC_INIT leaves it as it is. -/
theorem nopAndCrcInitEffects : Obligations.NopAndCrcInitEffects := by
  intro s a
  refine ⟨⟨rfl, rfl⟩, rfl, exec_crcInit s, ?_⟩
  intro t hnext
  rw [exec_crcInit] at hnext
  obtain rfl := Host.Outcome.next.inj hnext
  exact ⟨crcFinish_crcInit, exec_crcInit _⟩

end Sys2Proof.Machine
end

section
/-! The CRC32 engine (41_crc32_engine.md section 2): the outcomes of a span operation that are not a range error, and
what each of WR_DATA_IN, CRC_SPAN and CRC_COMPUTE leaves in ACC. -/

namespace Sys2Proof.Machine

/-! ### A span in range, one outcome at a time -/

/-- The fault is at the given address since only one index of a span can be its first unwritten one. -/
theorem accumulateSpan_of_firstUnwritten {s : State} {j : Nat} (c : Word)
    (hfit : s.addr.toNat + s.len.toNat ≤ s.bufSize) (hj : j < s.len.toNat)
    (hnone : s.buf.read (s.addr.toNat + j) = none)
    (hfirst : ∀ i, i < j → s.buf.read (s.addr.toNat + i) ≠ none) :
    accumulateSpan c s = .fault (.unwritten (s.addr.toNat + j)) := by
  rcases accumulateSpan_cases c s with
    ⟨bs, ⟨-, hlen, hbytes⟩, -⟩ | ⟨hpast, -⟩ | ⟨-, k, -, hnone', hfirst', hfault⟩
  · exact absurd hnone (State.holdsBytes_written hbytes (hlen ▸ hj))
  · omega
  · rcases Nat.lt_trichotomy k j with hlt | rfl | hgt
    · exact absurd hnone' (hfirst k hlt)
    · exact hfault
    · exact absurd hnone (hfirst' j hgt)

/-- An empty span may start at the very end of the buffer (R148). -/
theorem State.spanHolds_nil {s : State} (hlen : s.len = 0) (hin : s.addr.toNat ≤ s.bufSize) :
    s.spanHolds [] :=
  ⟨by simpa [hlen] using hin, by simp [hlen], fun _ hj => absurd hj (Nat.not_lt_zero _)⟩

/-- The starting accumulator and the bytes are all that the new ACC depends on. -/
theorem accumulateSpan_acc_congr {s s' : State} {bs : List Byte} (c : Word) (h : s.spanHolds bs)
    (h' : s'.spanHolds bs) :
    ∃ t t', accumulateSpan c s = .next t ∧ accumulateSpan c s' = .next t' ∧ t.acc = t'.acc :=
  ⟨_, _, accumulateSpan_of_spanHolds c h, accumulateSpan_of_spanHolds c h', rfl⟩

/-! ### The instructions of the engine -/

theorem exec_wrDataIn (d : Word) (s : State) :
    exec (.wrDataIn d) s = .next { s with acc := step8 s.acc (d.extractLsb' 0 8), response := none } := rfl

theorem exec_crcSpan (s : State) : exec .crcSpan s = accumulateSpan s.acc s := rfl

theorem exec_crcCompute (s : State) : exec .crcCompute s = accumulateSpan crcInit s := rfl

/-- Settles O34: K = 0b01 and X = 0b110 fix the row, whatever A is, and its one effect is the step of the low byte. -/
theorem dataInFeedsOneByte : Obligations.DataInFeedsOneByte :=
  fun s _ d => ⟨rfl, exec_wrDataIn d s⟩

/-- Settles O35: the three outcomes of folding a span, from the running ACC; an empty span inside the buffer holds
the empty sequence, whose fold is the ACC it starts from. -/
theorem crcSpanFoldsTheSpan : Obligations.CrcSpanFoldsTheSpan := by
  intro s
  rw [exec_crcSpan]
  refine ⟨fun a => decode_of_wrCtrl_selector rfl rfl, accumulateSpan_of_pastEnd s.acc,
    fun bs => accumulateSpan_of_spanHolds s.acc, fun j => accumulateSpan_of_firstUnwritten s.acc, ?_⟩
  intro hlen hin
  have hempty := accumulateSpan_of_spanHolds s.acc (State.spanHolds_nil hlen hin)
  rwa [crcFold_nil] at hempty

/-- Settles O36: the three outcomes of folding a span, from the initial accumulator; RESULT is the final XOR of the
ACC left, which is how the CRC-32 is defined (R143). -/
theorem crcComputeYieldsCrc32 : Obligations.CrcComputeYieldsCrc32 := by
  intro s
  rw [exec_crcCompute]
  exact ⟨fun a => decode_of_wrCtrl_selector rfl rfl, accumulateSpan_of_pastEnd crcInit,
    fun bs hbs => ⟨_, accumulateSpan_of_spanHolds crcInit hbs, rfl, rfl⟩,
    fun j => accumulateSpan_of_firstUnwritten crcInit⟩

/-- Settles O37: CRC_COMPUTE starts both folds from the initial accumulator, CRC_SPAN from the ACC the two states
share, and WR_DATA_IN takes one step from it by the byte the two words share. -/
theorem crcDependsOnlyOnTheBytes : Obligations.CrcDependsOnlyOnTheBytes := by
  refine ⟨fun s s' bs h h' => ⟨accumulateSpan_acc_congr crcInit h h', fun hacc => ?_⟩,
    fun s s' d d' hacc hbyte => ⟨_, _, exec_wrDataIn d s, exec_wrDataIn d' s', ?_⟩⟩
  · rw [exec_crcSpan, exec_crcSpan, ← hacc]
    exact accumulateSpan_acc_congr s.acc h h'
  · show step8 s.acc (d.extractLsb' 0 8) = step8 s'.acc (d'.extractLsb' 0 8)
    rw [hacc, hbyte]

/-! ### The check value -/

/-- The raw accumulator of the nine digits, before the final XOR. -/
theorem crcFold_nineDigits :
    crcFold crcInit [0x31, 0x32, 0x33, 0x34, 0x35, 0x36, 0x37, 0x38, 0x39] = 0x340BC6D9 := by
  decide +kernel

/-- Settles O38: the check value is the complement of the raw accumulator. -/
theorem checkValueOfTheNineDigits : Obligations.CheckValueOfTheNineDigits := by
  unfold Obligations.CheckValueOfTheNineDigits crc32
  rw [crcFold_nineDigits]
  decide

end Sys2Proof.Machine
end

section
/-! The DFU suffix formatter (42_dfu_suffix.md): the 16 bytes of the suffix written out, where they stand in the
buffer after a DFU_APPEND, and the outcomes of the command that are not a range error. -/

namespace Sys2Proof.Machine

/-! ### The bytes of the suffix -/

/-- The fields of R170 in file order (R171, R172). -/
theorem fixedSuffix_eq : fixedSuffix =
    [0xFF, 0xFF, 0xFF, 0xFF, 0xFF, 0xFF, 0x00, 0x01, 0x55, 0x46, 0x44, 0x10] := by decide

/-- Dividing by 256 drops the byte last taken, so byte `i` of a word is its bits from `8*i` up (R53). -/
theorem leBytes_four_toNat (v : Word) : leBytes 4 v.toNat =
    [v.extractLsb' 0 8, v.extractLsb' 8 8, v.extractLsb' 16 8, v.extractLsb' 24 8] := by
  simp only [leBytes, BitVec.extractLsb', Nat.shiftRight_eq_div_pow, Nat.div_div_eq_div_mul,
    Nat.reduceMul, Nat.reducePow, Nat.div_one]

theorem suffixOf_eq (image : List Byte) : suffixOf image =
    [0xFF, 0xFF, 0xFF, 0xFF, 0xFF, 0xFF, 0x00, 0x01, 0x55, 0x46, 0x44, 0x10,
      (dwCrc image).extractLsb' 0 8, (dwCrc image).extractLsb' 8 8,
      (dwCrc image).extractLsb' 16 8, (dwCrc image).extractLsb' 24 8] := by
  rw [suffixOf, fixedSuffix_eq, leBytes_four_toNat]
  rfl

/-! ### The buffer after a DFU_APPEND -/

theorem appendedBuffer_read_suffix (m : Memory) (e : Nat) (image : List Byte) {j : Nat} (hj : j < 16) :
    (appendedBuffer m e image).read (e + j) = (suffixOf image)[j]? := by
  rw [appendedBuffer_read, if_pos (by omega), Nat.add_sub_cancel_left]

theorem appendedBuffer_read_outside (m : Memory) {e a : Nat} (image : List Byte)
    (ha : a < e ∨ e + 16 ≤ a) : (appendedBuffer m e image).read a = m.read a := by
  rw [appendedBuffer_read, if_neg (by omega)]

/-! ### The command -/

theorem exec_dfuAppend (s : State) : exec .dfuAppend s = execDfuAppend s := rfl

/-- A stretch of the buffer has one first unwritten byte at most. -/
theorem State.firstUnwritten_unique {s : State} {a j k : Nat} (hj : s.buf.read (a + j) = none)
    (hbelowj : ∀ i, i < j → s.buf.read (a + i) ≠ none) (hk : s.buf.read (a + k) = none)
    (hbelowk : ∀ i, i < k → s.buf.read (a + i) ≠ none) : j = k :=
  Nat.le_antisymm (Nat.not_lt.mp fun hlt => hbelowj k hlt hk) (Nat.not_lt.mp fun hlt => hbelowk j hlt hj)

/-- The FIXED bytes are written before the image is read (R178) but stand above it, so they hide no unwritten byte
of it. -/
theorem execDfuAppend_of_firstUnwritten {s : State} {j : Nat}
    (hfit : s.addr.toNat + s.len.toNat + 16 ≤ s.bufSize) (hj : j < s.len.toNat)
    (hnone : s.buf.read (s.addr.toNat + j) = none)
    (hfirst : ∀ i, i < j → s.buf.read (s.addr.toNat + i) ≠ none) :
    execDfuAppend s = .fault (.unwritten (s.addr.toNat + j)) := by
  rcases execDfuAppend_cases s with
    ⟨image, ⟨-, hlen, hbytes⟩, -⟩ | ⟨hroom, -⟩ | ⟨-, k, -, hnone', hfirst', hfault⟩
  · exact absurd hnone (State.holdsBytes_written hbytes (hlen ▸ hj))
  · omega
  · rw [hfault, State.firstUnwritten_unique hnone' hfirst' hnone hfirst]

/-- Settles O43: with the image ready the command leaves the buffer with the suffix appended, whose last four bytes
are those of dwCRC, the final XOR of the ACC it leaves; the other two outcomes are those of the command's cases. -/
theorem dfuAppendWritesTheSuffix : Obligations.DfuAppendWritesTheSuffix := by
  intro s
  rw [exec_dfuAppend]
  refine ⟨fun a => decode_of_wrCtrl_selector rfl rfl, fun image hready => ?_, execDfuAppend_of_noRoom,
    fun j => execDfuAppend_of_firstUnwritten⟩
  rw [← fixedSuffix_eq]
  refine ⟨appendedBuffer s.buf (s.addr.toNat + s.len.toNat) image, crcFold crcInit (image ++ fixedSuffix),
    dwCrc image, rfl, rfl, execDfuAppend_of_imageReady hready, fun j hj => ?_, fun a => ?_⟩
  · rw [← suffixOf_eq]
    exact appendedBuffer_read_suffix _ _ _ hj
  · exact appendedBuffer_read_outside _ _

end Sys2Proof.Machine
end

section
/-! Encoding and decoding (30_encoding.md R70 to R75): the packed word holds the record, the encoder is a right inverse
of the decoder on the well-formed instructions, and the decoder answers nothing else. -/

namespace Sys2Proof

/-! ### The packed word holds the record (R71) -/

theorem Transaction.unpack_pack (t : Transaction) : Transaction.unpack t.pack = t := by
  obtain ⟨k, x, a, d⟩ := t
  have hd : (k ++ x ++ a ++ d).extractLsb' 0 32 = d := BitVec.extractLsb'_append_eq_right
  have ha : (k ++ x ++ a ++ d).extractLsb' 32 32 = a :=
    (BitVec.extractLsb'_append_eq_of_le (by decide)).trans BitVec.extractLsb'_append_eq_right
  have hkx : ∀ start len, (k ++ x ++ a ++ d).extractLsb' (start + 64) len = (k ++ x).extractLsb' start len :=
    fun start len => (BitVec.extractLsb'_append_eq_of_le (by omega)).trans
      (BitVec.extractLsb'_append_eq_of_le (by omega))
  have hx : (k ++ x ++ a ++ d).extractLsb' 64 3 = x := (hkx 0 3).trans BitVec.extractLsb'_append_eq_right
  have hk : (k ++ x ++ a ++ d).extractLsb' 67 2 = k := (hkx 3 2).trans BitVec.extractLsb'_append_eq_left
  simp only [unpack, pack, hd, ha, hx, hk]

theorem Transaction.ofNat_toNat (T : Packed) : Transaction.ofNat T.toNat = .ok (Transaction.unpack T) := by
  rw [Transaction.ofNat, if_pos T.isLt, BitVec.ofNat_toNat, BitVec.setWidth_eq]

/-- Settles O6, from the two directions of the field layout. -/
theorem packAndUnpackAreInverse : Obligations.PackAndUnpackAreInverse :=
  ⟨Transaction.unpack_pack, Transaction.pack_unpack⟩

theorem decodePacked_pack (t : Transaction) : decodePacked t.pack.toNat = .ok (decode t) := by
  rw [decodePacked, Transaction.ofNat_toNat, Transaction.unpack_pack]
  rfl

/-! ### The catch-all command row (R75) -/

/-- RSV is 0 exactly in the words 0 to 7. -/
theorem rsv_eq_zero_iff (d : Word) : d.extractLsb' 3 29 = 0 ↔ d.toNat < 8 := by
  rw [← BitVec.toNat_inj, BitVec.extractLsb'_toNat, Nat.shiftRight_eq_div_pow]
  have hlt := d.isLt
  show d.toNat / 2 ^ 3 % 2 ^ 29 = 0 ↔ d.toNat < 8
  omega

theorem wellFormed_cmdRsvdOther (d : Word) : (Instr.cmdRsvdOther d).WellFormed ↔ 8 ≤ d.toNat := by
  rw [← not_lt, ← rsv_eq_zero_iff]
  exact decide_eq_true_iff

/-- A word that no row of its own matches falls through to the catch-all. -/
theorem decodeCommand_of_le {d : Word} (h : 8 ≤ d.toNat) : decodeCommand d = .cmdRsvdOther d := by
  have hne : ∀ c : Word, c.toNat < 8 → d ≠ c := by
    rintro c hc rfl
    omega
  simp [decodeCommand, hne]

/-! ### Decode and encode agree -/

theorem decode_encode {i : Instr} (h : i.WellFormed) : decode (encode i) = i := by
  cases i with
  | wrCtrl d => exact absurd h Bool.false_ne_true
  | cmdRsvdOther d => exact decodeCommand_of_le ((wellFormed_cmdRsvdOther d).mp h)
  | rdCtrl | rdStatus | rdAddr | rdLen | rdAcc | rdResult | rdDataIn | rdR7 => rfl
  | wrStatus | wrAddr | wrLen | wrAcc | wrResult | wrDataIn | wrR7 => rfl
  | bufr | bufw => rfl
  | nop | crcInit | crcSpan | crcCompute | dfuAppend | cmdRsvd5 | cmdRsvd6 | cmdRsvd7 => rfl

/-- Settles O2: the record decodes back row by row, and the packed word holds the record. -/
theorem decodeOfEncodeIsIdentity : Obligations.DecodeOfEncodeIsIdentity :=
  fun i h => ⟨decode_encode h, by rw [decodePacked_pack, decode_encode h]⟩

/-! ### Every transaction decodes to a well-formed instruction -/

theorem decodeCommand_wellFormed (d : Word) : (decodeCommand d).WellFormed := by
  by_cases h : 8 ≤ d.toNat
  · rw [decodeCommand_of_le h]
    exact (wellFormed_cmdRsvdOther d).mpr h
  · have hword : ∀ c : Fin 8, (decodeCommand (BitVec.ofNat 32 c)).WellFormed := by decide
    have hd : BitVec.ofNat 32 d.toNat = d := by simp
    exact hd ▸ hword ⟨d.toNat, Nat.not_le.mp h⟩

theorem decodeRegRead_wellFormed : ∀ x : BitVec 3, (decodeRegRead x).WellFormed := by decide

theorem decodeRegWrite_wellFormed (x : BitVec 3) (d : Word) : (decodeRegWrite x d).WellFormed := by
  unfold decodeRegWrite
  split
  · exact decodeCommand_wellFormed d
  all_goals rfl

theorem decode_wellFormed (t : Transaction) : (decode t).WellFormed := by
  unfold decode
  split
  · exact decodeRegRead_wellFormed t.x
  · exact decodeRegWrite_wellFormed t.x t.d
  all_goals rfl

/-- Settles O4, kind by kind of K; the commands are the words 0 to 7 and the catch-all of the others. -/
theorem everyTransactionDecodesWellFormed : Obligations.EveryTransactionDecodesWellFormed :=
  decode_wellFormed

/-- Settles O5: with K known, each kind of the decoder takes only the fields R70 says it uses. -/
theorem ignoredFieldsDoNotMatter : Obligations.IgnoredFieldsDoNotMatter :=
  fun _ _ _ _ _ _ => ⟨rfl, rfl, rfl, rfl⟩

/-- Settles O1: each word is below 2^69 but the last, and its fields are closed. -/
theorem packedWordsDecode : Obligations.PackedWordsDecode :=
  ⟨rfl, rfl, rfl, rfl, rfl, rfl, rfl, rfl, rfl, rfl, rfl, rfl, rfl⟩

end Sys2Proof
end

section
/-! Host programs (30_encoding.md R78, R79): a number that fits its field assembles to the transaction that holds it,
and the decoder reads the number back. -/

namespace Sys2Proof.Machine

/-! ### Numbers that fit -/

theorem asmWord_of_lt {n : Nat} (h : n < 2 ^ 32) : asmWord n = some (BitVec.ofNat 32 n) := if_pos h

theorem asmWr_of_lt (r : RegName) {n : Nat} (h : n < 2 ^ 32) :
    asmWr r n = some ⟨0b01#2, r.index, 0, BitVec.ofNat 32 n⟩ := by
  rw [asmWr, asmWord_of_lt h, Option.map_some]

theorem asmWr_toNat (r : RegName) (d : Word) : asmWr r d.toNat = some ⟨0b01#2, r.index, 0, d⟩ := by
  rw [asmWr_of_lt r d.isLt, BitVec.ofNat_toNat, BitVec.setWidth_eq]

theorem asmLdb_toNat (a : Word) : asmLdb a.toNat = some ⟨0b10#2, 0, a, 0⟩ := by
  rw [asmLdb, asmWord_of_lt a.isLt, BitVec.ofNat_toNat, BitVec.setWidth_eq, Option.map_some]

theorem asmStb_of_lt {a : Nat} (h : a < 2 ^ 32) (b : Byte) :
    asmStb a b.toNat = some ⟨0b11#2, 0, BitVec.ofNat 32 a, b.setWidth 32⟩ := by
  rw [asmStb, if_neg (by have := b.isLt; omega), asmWord_of_lt h, Option.map_some, BitVec.ofNat_toNat]

/-- `stb` rejects a byte above 255, whatever its address is. -/
theorem asmStb_of_wide (a : Nat) {b : Nat} (h : 255 < b) : asmStb a b = none := if_pos h

/-! ### Lines of several transactions -/

theorem asmAll_cons_some (t : Transaction) (ts : List (Option Transaction)) :
    asmAll (some t :: ts) = (asmAll ts).map (t :: ·) := rfl

/-- The BUFWs of `bs` at rising addresses from `a` on (R79). -/
def bufwsFrom (a : Nat) (bs : List Byte) : List Instr :=
  (bs.zipIdx a).map fun p => .bufw (BitVec.ofNat 32 p.2) (p.1.setWidth 32)

theorem bufwsFrom_cons (a : Nat) (b : Byte) (bs : List Byte) :
    bufwsFrom a (b :: bs) = .bufw (BitVec.ofNat 32 a) (b.setWidth 32) :: bufwsFrom (a + 1) bs := rfl

/-- A span is its WR_ADDR, its WR_LEN and the command of a word `c` that fits. -/
theorem asmAll_span (a n : Word) {c : Nat} (hc : c < 2 ^ 32) :
    (asmAll [asmWr .addr a.toNat, asmWr .len n.toNat, asmWr .ctrl c]).map (List.map decode) =
      some [.wrAddr a, .wrLen n, decodeCommand (BitVec.ofNat 32 c)] := by
  rw [asmWr_toNat, asmWr_toNat, asmWr_of_lt _ hc]
  rfl

theorem asmAll_asmStbs {a : Nat} {bs : List Byte} (h : a + bs.length ≤ 2 ^ 32) :
    (asmAll (asmStbs a (bs.map BitVec.toNat))).map (List.map decode) = some (bufwsFrom a bs) := by
  induction bs generalizing a with
  | nil => rfl
  | cons b bs ih =>
    rw [List.length_cons] at h
    obtain ⟨ts, hts, hdec⟩ := Option.map_eq_some_iff.mp (ih (a := a + 1) (by omega))
    rw [List.map_cons, asmStbs, asmStb_of_lt (by omega), asmAll_cons_some, hts, bufwsFrom_cons, ← hdec]
    rfl

/-! ### Every line -/

/-- A `wr` of a word decodes to the register write of that word. -/
theorem assemble_wr_toNat (r : RegName) (d : Word) :
    (assemble (.wr r d.toNat)).map (List.map decode) = some [decode ⟨0b01#2, r.index, 0, d⟩] := by
  rw [assemble, asmWr_toNat]
  rfl

theorem assemble_stbsText_of_ascii (a : Nat) {text : List Char} (h : ∀ c ∈ text, c.toNat < 128) :
    assemble (.stbsText a text) = assemble (.stbs a (text.map Char.toNat)) :=
  if_pos (List.all_eq_true.mpr fun c hc => decide_eq_true (h c hc))

/-- Settles O7: the numbers of a line fit their fields, so each of its transactions is the one that holds them; the
lines of no number are closed, and an `stbs` goes byte by byte. -/
theorem assembledLinesDecodeToTheirInstructions : Obligations.AssembledLinesDecodeToTheirInstructions := by
  refine ⟨rfl, fun d => ?_, rfl, fun a n => ?_, fun a b => ⟨?_, ?_⟩, fun a b hb => ?_,
    fun a bs => asmAll_asmStbs, fun a text => assemble_stbsText_of_ascii a⟩
  · exact ⟨assemble_wr_toNat .ctrl d, assemble_wr_toNat .status d, assemble_wr_toNat .addr d,
      assemble_wr_toNat .len d, assemble_wr_toNat .acc d, assemble_wr_toNat .result d,
      assemble_wr_toNat .dataIn d, assemble_wr_toNat .r7 d⟩
  · refine ⟨asmAll_span a n (by decide), asmAll_span a n (by decide), asmAll_span a n (by decide), ?_⟩
    rw [assemble, asmLdb_toNat]
    rfl
  · rw [assemble, asmStb_of_lt a.isLt, BitVec.ofNat_toNat, BitVec.setWidth_eq]
    rfl
  · rw [assemble, asmWr_of_lt _ (by have := b.isLt; omega), BitVec.ofNat_toNat]
    rfl
  · rw [assemble, asmStb_of_wide a hb]
    rfl

end Sys2Proof.Machine
end

section
/-! What an instruction can leave: one inversion of `exec` for all rows, what it says of each field of the state, and
the statements about every step that follow from it. -/

namespace Sys2Proof.Machine

/-! ### Reset (70_reset_and_hazards.md R230) and the queue -/

theorem State.resetOf_statusWord (n : Nat) : (State.resetOf n).statusWord = 0 := by
  show (0#30 ++ BitVec.ofBool false) ++ BitVec.ofBool false = (0 : Word)
  decide

theorem State.resetOf_resultWord (n : Nat) : (State.resetOf n).resultWord = 0 := crcFinish_crcInit

/-- Settles O11: each value is written in the reset state, and RESULT is the final XOR of the initial ACC. -/
theorem resetStateHoldsResetValues : Obligations.ResetStateHoldsResetValues :=
  fun n => ⟨rfl, rfl, rfl, State.resetOf_statusWord n, State.resetOf_resultWord n, fun _ => rfl, rfl, rfl, rfl⟩

theorem step_of_nothing_pending {s : State} (h : s.pending = []) : step s = .next s := by
  rw [step, State.fetch, h]

theorem step_of_reset {s : State} {rest : List HostEvent} (h : s.pending = .reset :: rest) :
    step s = .next (State.afterResetEvent { s with pending := rest }) := by
  rw [step, State.fetch, h]

theorem step_of_transaction {s : State} {t : Transaction} {rest : List HostEvent}
    (h : s.pending = .transaction t :: rest) : step s = exec (decode t) { s with pending := rest } := by
  rw [step, State.fetch, h]

/-- Settles O9. -/
theorem stepWithNothingPendingWaits : Obligations.StepWithNothingPendingWaits :=
  fun _ => step_of_nothing_pending

/-- Settles O10: the state after a reset event is the reset state of this block's size with the later events. -/
theorem resetEventRestoresResetValues : Obligations.ResetEventRestoresResetValues :=
  fun s _ hpend => ⟨_, step_of_reset hpend, rfl, rfl, rfl, State.resetOf_statusWord s.bufSize,
    State.resetOf_resultWord s.bufSize, fun _ => rfl, rfl, rfl, rfl⟩

/-- A word that decodes brings its transaction, and the very next step runs it. -/
theorem step_withFetchWord {s : State} {nbits w : Nat} {i : Instr} (h : decodeTableWord nbits w = some i) :
    step (s.withFetchWord nbits w) = exec i s := by
  obtain ⟨t, ht, rfl⟩ := Option.map_eq_some_iff.mp h
  rw [State.withFetchWord, ht]
  exact step_of_transaction (State.placeNext_pending s _)

/-- Settles O8: the transaction is the first event, whether it stood there or the word placed it. -/
theorem stepRunsDecodedTransaction : Obligations.StepRunsDecodedTransaction := by
  refine ⟨fun s t rest i hpend hdec => ?_, fun s nbits w i => step_withFetchWord⟩
  rw [step_of_transaction hpend, hdec]

/-! ### Everything an instruction can leave -/

/-- The register writes and commands without any effect (R114, R115, R119). -/
def isIdle (i : Instr) : Prop := (∃ d, i = .wrResult d) ∨ (∃ d, i = .wrR7 d) ∨ i = .nop

/-- The instructions whose one effect is a new ACC; DFU_APPEND has others beside it. -/
def setsOnlyAcc (i : Instr) : Prop :=
  (∃ d, i = .wrAcc d) ∨ (∃ d, i = .wrDataIn d) ∨ i = .crcInit ∨ i = .crcSpan ∨ i = .crcCompute

/-- `Effect s i t`: `t` is a state that the row of `i` may leave from `s`, shown by the fields it changes. WR_CTRL has
no effect of its own: it is the command of its word. -/
inductive Effect (s : State) : Instr → State → Prop where
  | registerRead {i : Instr} (hi : isRegisterRead i) (v : Word) : Effect s i { s with response := some v }
  | bufferRead (a : Word) (b : Byte) : Effect s (.bufr a) { s with response := some (b.setWidth 32) }
  | bufferReadOutOfRange (a : Word) : Effect s (.bufr a) { s with errRange := true, response := some 0 }
  | wrStatus (d : Word) : Effect s (.wrStatus d) { s with
      errCmd := s.errCmd && !d.getLsbD 0, errRange := s.errRange && !d.getLsbD 1, response := none }
  | wrAddr (d : Word) : Effect s (.wrAddr d) { s with addr := d, response := none }
  | wrLen (d : Word) : Effect s (.wrLen d) { s with len := d, response := none }
  | idle {i : Instr} (hi : isIdle i) : Effect s i { s with response := none }
  | newAcc {i : Instr} (hi : setsOnlyAcc i) (c : Word) : Effect s i { s with acc := c, response := none }
  | bufferWrite (a d : Word) (hin : a.toNat < s.bufSize) : Effect s (.bufw a d) { s with
      buf := s.buf.write a.toNat (d.extractLsb' 0 8), response := none }
  | append (image : List Byte) (hready : s.imageReady image) : Effect s .dfuAppend { s with
      buf := appendedBuffer s.buf (s.addr.toNat + s.len.toNat) image
      acc := crcFold crcInit (image ++ fixedSuffix)
      len := BitVec.ofNat 32 (s.len.toNat + 16)
      response := none }
  | reserved {i : Instr} (hi : reservedWord i) : Effect s i { s with errCmd := true, response := none }
  | outOfRange {i : Instr} (hi : rangeErrorCondition i s) (hbufr : ∀ a, i ≠ .bufr a) :
      Effect s i { s with errRange := true, response := none }

section
variable {s t : State}

theorem Effect.of_execBufr {a : Word} (h : execBufr a s = .next t) : Effect s (.bufr a) t := by
  rcases execBufr_cases a s with ⟨b, -, -, hnext⟩ | ⟨-, hnext⟩ | ⟨-, -, hfault⟩
  · obtain rfl := Host.Outcome.next.inj (hnext.symm.trans h)
    exact .bufferRead a b
  · obtain rfl := Host.Outcome.next.inj (hnext.symm.trans h)
    exact .bufferReadOutOfRange a
  · cases hfault.symm.trans h

theorem Effect.of_execBufw {a d : Word} (h : execBufw a d s = .next t) : Effect s (.bufw a d) t := by
  rcases execBufw_cases a d s with ⟨hin, hnext⟩ | ⟨hout, hnext⟩
  · obtain rfl := Host.Outcome.next.inj (hnext.symm.trans h)
    exact .bufferWrite a d hin
  · obtain rfl := Host.Outcome.next.inj (hnext.symm.trans h)
    exact .outOfRange (.inr (.inr (.inr ⟨a, d, rfl, hout⟩))) (by simp)

theorem Effect.of_accumulateSpan {i : Instr} {c : Word} (hi : i = .crcSpan ∨ i = .crcCompute)
    (h : accumulateSpan c s = .next t) : Effect s i t := by
  rcases accumulateSpan_cases c s with ⟨bs, -, hnext⟩ | ⟨hpast, hnext⟩ | ⟨-, _, -, -, -, hfault⟩
  · obtain rfl := Host.Outcome.next.inj (hnext.symm.trans h)
    exact .newAcc (.inr (.inr (.inr hi))) _
  · obtain rfl := Host.Outcome.next.inj (hnext.symm.trans h)
    refine .outOfRange (.inl ⟨hi.imp_right .inl, hpast⟩) ?_
    rintro a rfl
    simp at hi
  · cases hfault.symm.trans h

theorem Effect.of_execDfuAppend (h : execDfuAppend s = .next t) : Effect s .dfuAppend t := by
  rcases execDfuAppend_cases s with ⟨image, hready, hnext⟩ | ⟨hroom, hnext⟩ | ⟨-, _, -, -, -, hfault⟩
  · obtain rfl := Host.Outcome.next.inj (hnext.symm.trans h)
    exact .append image hready
  · obtain rfl := Host.Outcome.next.inj (hnext.symm.trans h)
    exact .outOfRange (.inr (.inl ⟨.inl rfl, hroom⟩)) (by simp)
  · cases hfault.symm.trans h

theorem Effect.of_reservedWord {i : Instr} (hi : reservedWord i) (h : exec i s = .next t) : Effect s i t := by
  obtain rfl := Host.Outcome.next.inj ((exec_of_reservedWord hi s).symm.trans h)
  exact .reserved hi

/-- The inversion of `exec`, row by row. -/
theorem exec_effect {i : Instr} (hi : ∀ d, i ≠ .wrCtrl d) (h : exec i s = .next t) : Effect s i t := by
  cases i with
  | wrCtrl d => exact absurd rfl (hi d)
  | rdCtrl | rdStatus | rdAddr | rdLen | rdAcc | rdResult | rdDataIn | rdR7 =>
    obtain rfl := Host.Outcome.next.inj h
    exact .registerRead (by simp [isRegisterRead]) _
  | wrStatus d =>
    obtain rfl := Host.Outcome.next.inj ((exec_wrStatus d s).symm.trans h)
    exact .wrStatus d
  | wrAddr d => obtain rfl := Host.Outcome.next.inj h; exact .wrAddr d
  | wrLen d => obtain rfl := Host.Outcome.next.inj h; exact .wrLen d
  | wrResult | wrR7 | nop =>
    obtain rfl := Host.Outcome.next.inj h
    exact .idle (by simp [isIdle])
  | wrAcc | wrDataIn | crcInit =>
    obtain rfl := Host.Outcome.next.inj h
    exact .newAcc (by simp [setsOnlyAcc]) _
  | bufr a => exact .of_execBufr h
  | bufw a d => exact .of_execBufw h
  | crcSpan => exact .of_accumulateSpan (.inl rfl) h
  | crcCompute => exact .of_accumulateSpan (.inr rfl) h
  | dfuAppend => exact .of_execDfuAppend h
  | cmdRsvd5 | cmdRsvd6 | cmdRsvd7 | cmdRsvdOther =>
    exact .of_reservedWord (by simp [reservedWord]) h

end

/-! ### What an effect says of each field -/

namespace Effect
variable {s t : State} {i : Instr}

theorem bufSize_eq (h : Effect s i t) : t.bufSize = s.bufSize := by cases h <;> rfl

theorem pending_eq (h : Effect s i t) : t.pending = s.pending := by cases h <;> rfl

theorem addr_eq_or (h : Effect s i t) : t.addr = s.addr ∨ ∃ d, i = .wrAddr d := by
  cases h with
  | wrAddr d => exact .inr ⟨d, rfl⟩
  | _ => exact .inl rfl

theorem len_eq_or (h : Effect s i t) : t.len = s.len ∨ (∃ d, i = .wrLen d) ∨ i = .dfuAppend := by
  cases h with
  | wrLen d => exact .inr (.inl ⟨d, rfl⟩)
  | append => exact .inr (.inr rfl)
  | _ => exact .inl rfl

theorem acc_eq_or (h : Effect s i t) : t.acc = s.acc ∨ setsOnlyAcc i ∨ i = .dfuAppend := by
  cases h with
  | newAcc hi => exact .inr (.inl hi)
  | append => exact .inr (.inr rfl)
  | _ => exact .inl rfl

theorem buf_eq_or (h : Effect s i t) : t.buf = s.buf ∨ (∃ a d, i = .bufw a d) ∨ i = .dfuAppend := by
  cases h with
  | bufferWrite a d => exact .inr (.inl ⟨a, d, rfl⟩)
  | append => exact .inr (.inr rfl)
  | _ => exact .inl rfl

theorem errCmd_set_or (h : Effect s i t) (hset : s.errCmd = true) :
    t.errCmd = true ∨ ∃ d, i = .wrStatus d ∧ d.getLsbD 0 = true := by
  cases h with
  | wrStatus d => cases hbit : d.getLsbD 0 <;> simp [hset, hbit]
  | reserved => exact .inl rfl
  | _ => exact .inl hset

theorem errRange_set_or (h : Effect s i t) (hset : s.errRange = true) :
    t.errRange = true ∨ ∃ d, i = .wrStatus d ∧ d.getLsbD 1 = true := by
  cases h with
  | wrStatus d => cases hbit : d.getLsbD 1 <;> simp [hset, hbit]
  | bufferReadOutOfRange | outOfRange => exact .inl rfl
  | _ => exact .inl hset

theorem keeps_written (h : Effect s i t) {a : Nat} (ha : s.buf.read a ≠ none) : t.buf.read a ≠ none := by
  cases h with
  | bufferWrite a' d hin => exact Memory.writeBytes_keeps_written s.buf a'.toNat [d.extractLsb' 0 8] ha
  | append image => exact appendedBuffer_keeps_written _ _ image ha
  | _ => exact ha

/-- The two that write the buffer put bytes in range, each in its place; the others leave buffer and size. -/
theorem keeps_inv (h : Effect s i t) (hs : s.Inv) : t.Inv := by
  obtain ⟨hwf, hbelow, hsize⟩ := hs
  cases h with
  | bufferWrite a d hin =>
    exact ⟨Memory.wf_write _ _ _ hwf,
      Memory.writeBytes_below (bs := [d.extractLsb' 0 8]) hbelow (.inr hin), hsize⟩
  | append image hready =>
    exact ⟨appendedBuffer_wf _ _ image hwf, appendedBuffer_below image hbelow hready.1, hsize⟩
  | _ => exact ⟨hwf, hbelow, hsize⟩

theorem response_ne_none_iff (h : Effect s i t) :
    t.response ≠ none ↔ isRegisterRead i ∨ ∃ a, i = .bufr a := by
  cases h with
  | registerRead hi v => simp [hi]
  | bufferRead a b => simp
  | bufferReadOutOfRange a => simp
  | wrStatus | wrAddr | wrLen | bufferWrite | append => simp [isRegisterRead]
  | idle hi => obtain ⟨d, rfl⟩ | ⟨d, rfl⟩ | rfl := hi <;> simp [isRegisterRead]
  | newAcc hi => obtain ⟨d, rfl⟩ | ⟨d, rfl⟩ | rfl | rfl | rfl := hi <;> simp [isRegisterRead]
  | reserved hi => obtain rfl | rfl | rfl | ⟨d, rfl⟩ | ⟨d, rfl, -⟩ := hi <;> simp [isRegisterRead]
  | outOfRange hi hbufr =>
    obtain ⟨rfl | rfl | rfl | rfl, -⟩ | ⟨rfl | rfl, -⟩ | ⟨a, rfl, -⟩ | ⟨a, d, rfl, -⟩ := hi
    case outOfRange.inr.inr.inl => exact absurd rfl (hbufr a)
    all_goals simp [isRegisterRead]

end Effect

/-! ### Every instruction -/

/-- The split behind statements about all instructions: a WR_CTRL has the outcome of its command (R109), the others have
an outcome of their own. -/
theorem wrCtrl_or_ne (i : Instr) : (∃ d, i = .wrCtrl d) ∨ ∀ d, i ≠ .wrCtrl d :=
  (Classical.em _).imp_right not_exists.mp

/-- Settles O14: every outcome is a next state or a fault, a WR_CTRL's too, since it is that of its command. -/
theorem noInstructionIsRefused : Obligations.NoInstructionIsRefused := by
  have hne : ∀ (i : Instr) (s : State) (r : Refusal), (∀ d, i ≠ .wrCtrl d) → exec i s ≠ .refused r := by
    intro i s r hi hrefused
    rcases exec_next_or_fault hi s with ⟨t, hnext⟩ | ⟨-, a, hfault, -⟩
    · cases hnext.symm.trans hrefused
    · cases hfault.symm.trans hrefused
  intro i s r
  rcases wrCtrl_or_ne i with ⟨d, rfl⟩ | hi
  · rw [exec_wrCtrl]
    exact hne _ s r (decodeCommand_ne_wrCtrl d)
  · exact hne i s r hi

/-- No command word selects a read. -/
theorem not_read_decodeCommand (d : Word) :
    ¬(isRegisterRead (decodeCommand d) ∨ ∃ a, decodeCommand d = .bufr a) := by
  unfold decodeCommand
  split_ifs <;> simp [isRegisterRead]

/-- Settles O23: the effect of each row says what it returns, and a WR_CTRL and its command are no reads. -/
theorem exactlyTheReadsReturnData : Obligations.ExactlyTheReadsReturnData := by
  intro i s t hnext
  rcases wrCtrl_or_ne i with ⟨d, rfl⟩ | hi
  · rw [exec_wrCtrl] at hnext
    rw [(exec_effect (decodeCommand_ne_wrCtrl d) hnext).response_ne_none_iff]
    exact iff_of_false (not_read_decodeCommand d) (by simp [isRegisterRead])
  · exact (exec_effect hi hnext).response_ne_none_iff

/-! ### Every step -/

section
variable {s t : State}

/-- The inversion of `step`. -/
theorem step_next_cases (h : step s = .next t) :
    (s.pending = [] ∧ t = s) ∨
    (∃ rest, s.pending = .reset :: rest ∧ t = State.afterResetEvent { s with pending := rest }) ∨
    (∃ T rest, s.pending = .transaction T :: rest ∧ Effect { s with pending := rest } (decode T) t) := by
  rcases step_cases s with ⟨hpend, hstep⟩ | ⟨rest, hpend, hstep⟩ | ⟨T, rest, hpend, hstep⟩
  · exact .inl ⟨hpend, Host.Outcome.next.inj (h.symm.trans hstep)⟩
  · exact .inr (.inl ⟨rest, hpend, Host.Outcome.next.inj (h.symm.trans hstep)⟩)
  · exact .inr (.inr ⟨T, rest, hpend, exec_effect (decode_ne_wrCtrl T) (hstep.symm.trans h)⟩)

/-- Seen from the block's own fields, a step waits, resets or has the effect of the host's next instruction. -/
theorem step_effect (h : step s = .next t) :
    t = s ∨ s.nextIsReset ∨ ∃ i rest, s.nextIs i ∧ Effect { s with pending := rest } i t := by
  rcases step_next_cases h with ⟨-, heq⟩ | ⟨rest, hpend, -⟩ | ⟨T, rest, hpend, heffect⟩
  · exact .inl heq
  · exact .inr (.inl ⟨rest, hpend⟩)
  · exact .inr (.inr ⟨decode T, rest, ⟨T, rest, hpend, rfl⟩, heffect⟩)

theorem step_pending_of_cons {e : HostEvent} {rest : List HostEvent} (hpend : s.pending = e :: rest)
    (h : step s = .next t) : t.pending = rest := by
  rcases step_next_cases h with ⟨hnil, -⟩ | ⟨rest', hcons, rfl⟩ | ⟨T, rest', hcons, heffect⟩
  · cases hpend.symm.trans hnil
  · exact (List.cons.inj (hcons.symm.trans hpend)).2
  · exact heffect.pending_eq.trans (List.cons.inj (hcons.symm.trans hpend)).2

theorem step_bufSize (h : step s = .next t) : t.bufSize = s.bufSize := by
  rcases step_next_cases h with ⟨-, rfl⟩ | ⟨rest, -, rfl⟩ | ⟨T, rest, -, heffect⟩
  · rfl
  · rfl
  · exact heffect.bufSize_eq

theorem resetOf_inv {n : Nat} (h : Config.legalBufSize n) : (State.resetOf n).Inv :=
  ⟨rfl, fun _ hc => absurd hc List.not_mem_nil, h⟩

theorem step_keeps_inv (hs : s.Inv) (h : step s = .next t) : t.Inv := by
  rcases step_next_cases h with ⟨-, rfl⟩ | ⟨rest, -, rfl⟩ | ⟨T, rest, -, heffect⟩
  · exact hs
  · exact resetOf_inv hs.2.2
  · exact heffect.keeps_inv hs

end

/-- Settles O16: waiting keeps the state, a reset event gives the reset state of the same size, and an instruction
keeps the invariant by its effect. -/
theorem stepKeepsInvariant : Obligations.StepKeepsInvariant :=
  fun _ _ => step_keeps_inv

/-- Settles O15: the empty buffer is canonical, and 64 is a legal size. -/
theorem resetStateMeetsInvariant : Obligations.ResetStateMeetsInvariant :=
  ⟨fun _ => resetOf_inv, resetOf_inv (by decide)⟩

/-- Settles O12: no effect touches the queue or the size. -/
theorem stepConsumesOneEventAndKeepsBufSize : Obligations.StepConsumesOneEventAndKeepsBufSize :=
  ⟨fun _ _ _ _ => step_pending_of_cons,
    fun _ _ hnil h => Host.Outcome.next.inj (h.symm.trans (step_of_nothing_pending hnil)),
    fun _ _ => step_bufSize⟩

/-- Settles O20: only the effect of a WR_STATUS with the flag's bit leaves a set flag clear. -/
theorem flagsAreSticky : Obligations.FlagsAreSticky := by
  intro s t h
  rcases step_effect h with rfl | hreset | ⟨i, rest, hnext, heffect⟩
  · exact ⟨fun hset hclear => absurd hset (Bool.eq_false_iff.mp hclear),
      fun hset hclear => absurd hset (Bool.eq_false_iff.mp hclear)⟩
  · exact ⟨fun _ _ => .inl hreset, fun _ _ => .inl hreset⟩
  · refine ⟨fun hset hclear => .inr ?_, fun hset hclear => .inr ?_⟩
    · obtain ⟨d, rfl, hbit⟩ := (heffect.errCmd_set_or hset).resolve_left (Bool.eq_false_iff.mp hclear)
      exact ⟨d, hnext, hbit⟩
    · obtain ⟨d, rfl, hbit⟩ := (heffect.errRange_set_or hset).resolve_left (Bool.eq_false_iff.mp hclear)
      exact ⟨d, hnext, hbit⟩

/-- Settles O22: an effect that changes a register or the buffer is that of an instruction named for it. -/
theorem onlyNamedTransactionsWriteEachRegister : Obligations.OnlyNamedTransactionsWriteEachRegister := by
  intro s t h
  rcases step_effect h with rfl | hreset | ⟨i, rest, hnext, heffect⟩
  · exact ⟨fun hne => absurd rfl hne, fun hne => absurd rfl hne, fun hne => absurd rfl hne,
      fun hne => absurd rfl hne⟩
  · exact ⟨fun _ => .inl hreset, fun _ => .inl hreset, fun _ => .inl hreset, fun _ => .inl hreset⟩
  · refine ⟨fun hne => .inr ?_, fun hne => .inr ?_, fun hne => .inr ?_, fun hne => .inr ?_⟩
    · obtain ⟨d, rfl⟩ := heffect.addr_eq_or.resolve_left hne
      exact ⟨d, hnext⟩
    · obtain ⟨d, rfl⟩ | rfl := heffect.len_eq_or.resolve_left hne
      · exact .inl ⟨d, hnext⟩
      · exact .inr hnext
    · obtain (⟨d, rfl⟩ | ⟨d, rfl⟩ | rfl | rfl | rfl) | rfl := heffect.acc_eq_or.resolve_left hne
      · exact .inl ⟨d, hnext⟩
      · exact .inr (.inl ⟨d, hnext⟩)
      · exact .inr (.inr (.inl hnext))
      · exact .inr (.inr (.inr (.inl hnext)))
      · exact .inr (.inr (.inr (.inr (.inl hnext))))
      · exact .inr (.inr (.inr (.inr (.inr hnext))))
    · obtain ⟨a, d, rfl⟩ | rfl := heffect.buf_eq_or.resolve_left hne
      · exact .inl ⟨a, d, hnext⟩
      · exact .inr hnext

/-- Settles O29: no effect leaves a written byte unwritten. -/
theorem writtenMarksLastUntilReset : Obligations.WrittenMarksLastUntilReset := by
  intro s t a h hwritten hnone
  rcases step_effect h with rfl | hreset | ⟨i, rest, -, heffect⟩
  · exact absurd hnone hwritten
  · exact hreset
  · exact absurd hnone (heffect.keeps_written hwritten)

end Sys2Proof.Machine
end

section
/-! Two runs of one instruction: with other flags (10_state.md R26, 60_exceptions.md R207), and a second time
(20_memory.md R59). -/

namespace Sys2Proof.Machine

/-! ### The flags block nothing -/

/-- `s` with any values of the two flags. -/
def State.withFlags (s : State) (c r : Bool) : State := { s with errCmd := c, errRange := r }

/-- `t` is `s` but for the flags, the size and the queue. -/
structure State.AgreesWith (s t : State) : Prop where
  addr : t.addr = s.addr
  len : t.len = s.len
  acc : t.acc = s.acc
  buf : t.buf = s.buf
  response : t.response = s.response

/-- Whenever the first outcome is a next state, so is the second, and the two agree but for the flags. -/
def completesAlike (o o' : Host.Outcome State Fault Refusal) : Prop :=
  ∀ t, o = .next t → ∃ t', o' = .next t' ∧ t.AgreesWith t'

section
variable {s t t' : State} {c r : Bool} {o o' : Host.Outcome State Fault Refusal}

theorem completesAlike_of_next (h : o = .next t) (h' : o' = .next t') (hagree : t.AgreesWith t') :
    completesAlike o o' := by
  rintro _ rfl
  obtain rfl := Host.Outcome.next.inj h
  exact ⟨t', h', hagree⟩

theorem completesAlike_of_fault {f : Fault} (h : o = .fault f) : completesAlike o o' := by
  rintro _ rfl
  cases h

/-- A span and its room are looked up by ADDR, LEN, the buffer and the size alone. -/
theorem accumulateSpan_withFlags (a : Word) :
    completesAlike (accumulateSpan a s) (accumulateSpan a (s.withFlags c r)) := by
  rcases accumulateSpan_cases a s with ⟨bs, hbs, hnext⟩ | ⟨hpast, hnext⟩ | ⟨-, _, -, -, -, hfault⟩
  · exact completesAlike_of_next hnext (accumulateSpan_of_spanHolds (s := s.withFlags c r) a hbs)
      ⟨rfl, rfl, rfl, rfl, rfl⟩
  · exact completesAlike_of_next hnext (accumulateSpan_of_pastEnd (s := s.withFlags c r) a hpast)
      ⟨rfl, rfl, rfl, rfl, rfl⟩
  · exact completesAlike_of_fault hfault

theorem execDfuAppend_withFlags : completesAlike (execDfuAppend s) (execDfuAppend (s.withFlags c r)) := by
  rcases execDfuAppend_cases s with ⟨image, hready, hnext⟩ | ⟨hroom, hnext⟩ | ⟨-, _, -, -, -, hfault⟩
  · exact completesAlike_of_next hnext (execDfuAppend_of_imageReady (s := s.withFlags c r) hready)
      ⟨rfl, rfl, rfl, rfl, rfl⟩
  · exact completesAlike_of_next hnext (execDfuAppend_of_noRoom (s := s.withFlags c r) hroom)
      ⟨rfl, rfl, rfl, rfl, rfl⟩
  · exact completesAlike_of_fault hfault

theorem execBufr_withFlags (a : Word) : completesAlike (execBufr a s) (execBufr a (s.withFlags c r)) := by
  rcases execBufr_cases a s with ⟨b, hin, hread, hnext⟩ | ⟨hout, hnext⟩ | ⟨-, -, hfault⟩
  · exact completesAlike_of_next hnext (execBufr_of_written (s := s.withFlags c r) hin hread)
      ⟨rfl, rfl, rfl, rfl, rfl⟩
  · exact completesAlike_of_next hnext (execBufr_of_outOfRange (s := s.withFlags c r) hout)
      ⟨rfl, rfl, rfl, rfl, rfl⟩
  · exact completesAlike_of_fault hfault

theorem execBufw_withFlags (a d : Word) :
    completesAlike (execBufw a d s) (execBufw a d (s.withFlags c r)) := by
  rcases execBufw_cases a d s with ⟨hin, hnext⟩ | ⟨hout, hnext⟩
  · exact completesAlike_of_next hnext (execBufw_of_inRange (s := s.withFlags c r) hin)
      ⟨rfl, rfl, rfl, rfl, rfl⟩
  · exact completesAlike_of_next hnext (execBufw_of_outOfRange (s := s.withFlags c r) hout)
      ⟨rfl, rfl, rfl, rfl, rfl⟩

/-- RD_STATUS is left out: its read data is the flags. -/
theorem exec_withFlags {i : Instr} (hctrl : ∀ d, i ≠ .wrCtrl d) (hstatus : i ≠ .rdStatus) :
    completesAlike (exec i s) (exec i (s.withFlags c r)) := by
  cases i with
  | wrCtrl d => exact absurd rfl (hctrl d)
  | rdStatus => exact absurd rfl hstatus
  | bufr a => exact execBufr_withFlags a
  | bufw a d => exact execBufw_withFlags a d
  | crcSpan => exact accumulateSpan_withFlags s.acc
  | crcCompute => exact accumulateSpan_withFlags crcInit
  | dfuAppend => exact execDfuAppend_withFlags
  | rdCtrl | rdAddr | rdLen | rdAcc | rdResult | rdDataIn | rdR7 =>
    exact completesAlike_of_next rfl rfl ⟨rfl, rfl, rfl, rfl, rfl⟩
  | wrStatus | wrAddr | wrLen | wrAcc | wrResult | wrDataIn | wrR7 =>
    exact completesAlike_of_next rfl rfl ⟨rfl, rfl, rfl, rfl, rfl⟩
  | nop | crcInit | cmdRsvd5 | cmdRsvd6 | cmdRsvd7 | cmdRsvdOther =>
    exact completesAlike_of_next rfl rfl ⟨rfl, rfl, rfl, rfl, rfl⟩

/-- A WR_CTRL is the command of its word, which is no RD_STATUS. -/
theorem exec_wrCtrl_withFlags (d : Word) :
    completesAlike (exec (.wrCtrl d) s) (exec (.wrCtrl d) (s.withFlags c r)) := by
  rw [exec_wrCtrl, exec_wrCtrl]
  refine exec_withFlags (decodeCommand_ne_wrCtrl d) fun h => not_read_decodeCommand d (.inl ?_)
  exact .inr (.inl h)

end

/-- Settles O21: every row but RD_STATUS completes alike with other flags, and RD_STATUS changes its read data
alone. -/
theorem flagsBlockNothing : Obligations.FlagsBlockNothing := by
  intro i s t c r hnext
  by_cases hstatus : i = .rdStatus
  · subst hstatus
    obtain rfl := Host.Outcome.next.inj hnext
    exact ⟨_, rfl, rfl, rfl, rfl, rfl, fun hne => absurd rfl hne⟩
  · have halike : completesAlike (exec i s) (exec i (s.withFlags c r)) := by
      rcases wrCtrl_or_ne i with ⟨d, rfl⟩ | hctrl
      · exact exec_wrCtrl_withFlags d
      · exact exec_withFlags hctrl hstatus
    obtain ⟨t', hnext', hagree⟩ := halike t hnext
    exact ⟨t', hnext', hagree.addr, hagree.len, hagree.acc, hagree.buf, fun _ => hagree.response⟩

/-! ### Repeated accesses -/

section
variable {s t : State}

theorem exec_registerRead_twice {i : Instr} (hi : isRegisterRead i) (h : exec i s = .next t) :
    t = { s with response := t.response } ∧ exec i t = .next t := by
  obtain rfl | rfl | rfl | rfl | rfl | rfl | rfl | rfl := hi
  all_goals
    obtain rfl := Host.Outcome.next.inj h
    exact ⟨rfl, rfl⟩

/-- Clearing a flag once is clearing it for good. -/
theorem exec_wrStatus_twice {d : Word} (h : exec (.wrStatus d) s = .next t) :
    exec (.wrStatus d) t = .next t := by
  obtain rfl := Host.Outcome.next.inj ((exec_wrStatus d s).symm.trans h)
  rw [exec_wrStatus]
  simp only [Bool.and_assoc, Bool.and_self]

theorem exec_plainRegisterWrite_twice {i : Instr} (hi : isPlainRegisterWrite i) (h : exec i s = .next t) :
    exec i t = .next t := by
  obtain ⟨d, rfl | rfl | rfl | rfl | rfl | rfl⟩ := hi
  · exact exec_wrStatus_twice h
  all_goals
    obtain rfl := Host.Outcome.next.inj h
    rfl

theorem execBufr_twice {a : Word} (hin : a.toNat < s.bufSize) (h : execBufr a s = .next t) :
    t = { s with response := t.response } ∧ execBufr a t = .next t := by
  rcases execBufr_cases a s with ⟨b, -, hread, hnext⟩ | ⟨hout, -⟩ | ⟨-, -, hfault⟩
  · obtain rfl := Host.Outcome.next.inj (hnext.symm.trans h)
    exact ⟨rfl, execBufr_of_written hin hread⟩
  · omega
  · cases hfault.symm.trans h

end

/-- Settles O24: a read leaves all it reads from, a store puts the same value again, and a cleared flag stays clear. -/
theorem repeatedAccessesAreIdempotent : Obligations.RepeatedAccessesAreIdempotent := by
  intro i s t h
  refine ⟨fun hi => exec_registerRead_twice hi h, fun hi => exec_plainRegisterWrite_twice hi h, ?_⟩
  rintro a rfl hin
  exact execBufr_twice hin h

end Sys2Proof.Machine
end

section
/-! The CRC function (41_crc32_engine.md sections 1 and 4): the tabled step, and the fold of a word's four bytes. -/

namespace Sys2Proof.Machine

/-! ### Shifts over zero bits -/

theorem crcShift_of_even {x : Word} (h : x.getLsbD 0 = false) : crcShift x = x >>> 1 := by
  rw [crcShift, h, if_neg Bool.false_ne_true]

/-- While the bits that leave are 0, no polynomial enters. -/
theorem crcShifts_of_low_zero {n : Nat} {x : Word} (h : ∀ j, j < n → x.getLsbD j = false) :
    crcShifts n x = x >>> n := by
  induction n generalizing x with
  | zero => exact (BitVec.ushiftRight_zero x).symm
  | succ n ih =>
    have hnext : ∀ j, j < n → (x >>> 1).getLsbD j = false := fun j hj => by
      rw [BitVec.getLsbD_ushiftRight]
      exact h _ (by omega)
    rw [crcShifts, crcShift_of_even (h 0 (Nat.succ_pos n)), ih hnext, ← BitVec.shiftRight_add, Nat.add_comm]

/-- A word is its low byte and the bits above it. -/
theorem word_eq_lowByte_xor (x : Word) : x = (x.extractLsb' 0 8).setWidth 32 ^^^ (x >>> 8) <<< 8 := by
  ext i hi
  by_cases h : i < 8
  · simp [h, hi]
  · simp [h, hi, Nat.add_sub_cancel' (Nat.not_lt.mp h)]

/-- The low byte of what is added to the accumulator enters by the step; the bits above it move down unchanged. -/
theorem crcShifts_eight_xor (c x : Word) :
    crcShifts 8 (c ^^^ x) = step8 c (x.extractLsb' 0 8) ^^^ x >>> 8 := by
  have hhigh : crcShifts 8 ((x >>> 8) <<< 8) = x >>> 8 := by
    rw [crcShifts_of_low_zero fun j hj => by simp [hj]]
    ext i hi
    simpa [hi] using BitVec.lt_of_getLsbD
  calc crcShifts 8 (c ^^^ x)
      = crcShifts 8 ((c ^^^ (x.extractLsb' 0 8).setWidth 32) ^^^ (x >>> 8) <<< 8) := by
        rw [BitVec.xor_assoc, ← word_eq_lowByte_xor]
    _ = step8 c (x.extractLsb' 0 8) ^^^ x >>> 8 := by rw [crcShifts_xor, hhigh, step8]

/-! ### The tabled step (R145) -/

/-- Settles O39: 256 closed entries. -/
theorem tableEntriesAreStepsFromZero : Obligations.TableEntriesAreStepsFromZero := by
  unfold Obligations.TableEntriesAreStepsFromZero
  decide +kernel

theorem and_lowByte_toNat (x : Word) : (x &&& 0xFF).toNat = (x.extractLsb' 0 8).toNat := by
  rw [BitVec.toNat_and, BitVec.extractLsb'_toNat, Nat.shiftRight_zero]
  exact Nat.and_two_pow_sub_one_eq_mod x.toNat 8

theorem xor_byte_ushiftRight (c : Word) (b : Byte) : (c ^^^ b.setWidth 32) >>> 8 = c >>> 8 := by
  ext i hi
  simp

/-- Settles O40: the eight shifts of `c ^ b` are the step of its low byte from 0, which is its table entry, and the
bits above moved down, where `b` has none. -/
theorem tabledStepEqualsBitSerialStep : Obligations.TabledStepEqualsBitSerialStep := by
  intro c b
  have hstep := crcShifts_eight_xor 0#32 (c ^^^ b.setWidth 32)
  rw [BitVec.zero_xor, xor_byte_ushiftRight] at hstep
  rw [step8Tabled, and_lowByte_toNat, tableEntriesAreStepsFromZero.2]
  exact hstep.symm

/-! ### A word fed byte by byte -/

/-- Feeding the bytes of `v`, least significant first, is 32 shifts of the accumulator with `v` added. -/
theorem crcFold_leBytes_four (c v : Word) : crcFold c (leBytes 4 v.toNat) = crcShifts 32 (c ^^^ v) := by
  have hbyte : ∀ k, (v >>> k).extractLsb' 0 8 = v.extractLsb' k 8 := fun k => by
    ext i hi
    simp
  have hdone : v >>> 32 = 0#32 := BitVec.ushiftRight_eq_zero (Nat.le_refl 32)
  calc crcFold c (leBytes 4 v.toNat)
      = step8 (step8 (step8 (step8 c (v.extractLsb' 0 8)) (v.extractLsb' 8 8)) (v.extractLsb' 16 8))
          (v.extractLsb' 24 8) := by rw [leBytes_four_toNat]; rfl
    _ = crcShifts 8 (crcShifts 8 (crcShifts 8 (crcShifts 8 (c ^^^ v)))) := by
        simp only [crcShifts_eight_xor, hbyte, ← BitVec.shiftRight_add, Nat.reduceAdd, hdone, BitVec.xor_zero]
    _ = crcShifts 32 (c ^^^ v) := by simp only [← crcShifts_add, Nat.reduceAdd]

/-- Feeding its own complement leaves nothing of the accumulator (R183). -/
theorem crcFold_leBytes_crcFinish (c : Word) :
    crcFold c (leBytes 4 (crcFinish c).toNat) = crcShifts 32 crcFinalXor := by
  rw [crcFold_leBytes_four, crcFinish, ← BitVec.xor_assoc, BitVec.xor_self, BitVec.zero_xor]

theorem crcFinish_residue : crcFinish (crcShifts 32 crcFinalXor) = 0x2144DF1C := by decide +kernel

/-- dwCRC is the complement of the accumulator it is fed to. -/
theorem crc32_append_suffixOf (image : List Byte) : crc32 (image ++ suffixOf image) = 0x2144DF1C := by
  rw [crc32, suffixOf, ← List.append_assoc, crcFold_append, dwCrc, crc32, crcFold_leBytes_crcFinish,
    crcFinish_residue]

end Sys2Proof.Machine
end

section
/-! The engine and the host's accesses over spans of the buffer: little-endian values, streaming, chaining. -/

namespace Sys2Proof.Machine

/-! ### Little-endian values (00_scope.md R10, 20_memory.md R53) -/

theorem leValue_leBytes (n v : Nat) : leValue (leBytes n v) = v % 2 ^ (8 * n) := by
  induction n generalizing v with
  | zero => rw [Nat.mul_zero, Nat.pow_zero, Nat.mod_one]; rfl
  | succ n ih =>
    rw [leBytes, leValue, ih, BitVec.toNat_ofNat, show 2 ^ (8 * (n + 1)) = 256 * 2 ^ (8 * n) by ring,
      Nat.mod_mul]

theorem leBytes_getElem? {n i : Nat} (v : Nat) (h : i < n) :
    (leBytes n v)[i]? = some (BitVec.ofNat 8 (v / 2 ^ (8 * i))) := by
  induction n generalizing i v with
  | zero => omega
  | succ n ih =>
    cases i with
    | zero => simp [leBytes]
    | succ i =>
      rw [leBytes, List.getElem?_cons_succ, ih _ (by omega), Nat.div_div_eq_div_mul,
        show 2 ^ (8 * (i + 1)) = 256 * 2 ^ (8 * i) by ring]

theorem State.memWriteN_holdsBytes (s : State) (a n v : Nat) :
    (s.memWriteN a n v).holdsBytes a (leBytes n v) :=
  fun _ hj => Memory.read_writeBytes_inside s.buf a _ hj

/-- Settles O30: the bytes stand where they were written, and summing them up again is `v` below `2^(8n)`. -/
theorem littleEndianWriteReadsBack : Obligations.LittleEndianWriteReadsBack := by
  intro s a n v
  have hbytes := State.memWriteN_holdsBytes s a n v
  refine ⟨?_, fun i hi => ?_, fun a' ha' => ?_⟩
  · rw [State.memReadN, State.readSpan_ok.mpr ⟨leBytes_length n v, hbytes⟩, Except.map, leValue_leBytes]
  · rw [hbytes i (by simpa using hi), leBytes_getElem? v hi]
  · exact Memory.read_writeBytes_outside s.buf _ (by simpa using ha')

/-! ### Streaming (R143) -/

theorem exec_wrDataIn_byte (b : Byte) (s : State) :
    exec (.wrDataIn (b.setWidth 32)) s = .next { s with acc := step8 s.acc b, response := none } := by
  have hbyte : (b.setWidth 32).extractLsb' 0 8 = b := by
    ext i hi
    simpa [hi] using fun _ => Nat.lt_trans hi (by decide)
  rw [exec_wrDataIn, hbyte]

theorem execAll_cons_of_next {i : Instr} {is : List Instr} {s t : State} (h : exec i s = .next t) :
    execAll (i :: is) s = execAll is t := by
  rw [execAll, h]

/-- One WR_DATA_IN for each byte folds the bytes from whatever ACC holds. -/
theorem execAll_wrDataIn (bs : List Byte) (s : State) (hs : s.response = none) :
    execAll (bs.map fun b => .wrDataIn (b.setWidth 32)) s = .next { s with acc := crcFold s.acc bs } := by
  induction bs generalizing s with
  | nil => rfl
  | cons b bs ih =>
    rw [List.map_cons, execAll_cons_of_next (exec_wrDataIn_byte b s), ih _ rfl, ← hs]
    rfl

/-- Settles O42: both ways leave the fold of the bytes from the initial accumulator, and RD_RESULT returns its final
XOR. -/
theorem streamedBytesYieldCrc32 : Obligations.StreamedBytesYieldCrc32 := by
  refine fun s bs => ⟨⟨{ s with acc := crcFold crcInit bs, response := none }, ?_, rfl⟩, fun hbs => ?_⟩
  · rw [execAll_cons_of_next (exec_crcInit s), execAll_wrDataIn _ _ rfl]
  · exact ⟨_, accumulateSpan_of_spanHolds crcInit hbs, rfl⟩

/-! ### Chaining (R151) -/

/-- The first `n` bytes of a span of `n + m`. -/
theorem State.spanHolds_take {s : State} {a n m : Word} {bs : List Byte} (hnm : n.toNat + m.toNat < 2 ^ 32)
    (h : State.spanHolds { s with addr := a, len := n + m } bs) :
    State.spanHolds { s with addr := a, len := n } (bs.take n.toNat) := by
  obtain ⟨hfit, hlen, hbytes⟩ := h
  simp only [BitVec.toNat_add_of_lt hnm] at hfit hlen
  rw [← List.take_append_drop n.toNat bs, State.holdsBytes_append] at hbytes
  have hlen' : (bs.take n.toNat).length = n.toNat := by rw [List.length_take]; omega
  have hfit' : a.toNat + n.toNat ≤ s.bufSize := by omega
  exact ⟨hfit', hlen', hbytes.1⟩

/-- The `m` bytes after them. Where `a + n` wraps to 0, the legal size leaves no byte after them. -/
theorem State.spanHolds_drop {s : State} {a n m : Word} {bs : List Byte}
    (hsize : Config.legalBufSize s.bufSize) (hnm : n.toNat + m.toNat < 2 ^ 32)
    (h : State.spanHolds { s with addr := a, len := n + m } bs) :
    State.spanHolds { s with addr := a + n, len := m } (bs.drop n.toNat) := by
  obtain ⟨hfit, hlen, hbytes⟩ := h
  have hmax : s.bufSize ≤ 2 ^ 32 := hsize.2
  simp only [BitVec.toNat_add_of_lt hnm] at hfit hlen
  have hlen' : (bs.drop n.toNat).length = m.toNat := by rw [List.length_drop]; omega
  by_cases hwrap : a.toNat + n.toNat < 2 ^ 32
  · have haddr : (a + n).toNat = a.toNat + n.toNat := BitVec.toNat_add_of_lt hwrap
    have hfit' : (a + n).toNat + m.toNat ≤ s.bufSize := by omega
    have hbytes' : s.holdsBytes (a + n).toNat (bs.drop n.toNat) := by
      rw [← List.take_append_drop n.toNat bs, State.holdsBytes_append,
        List.length_take_of_le (by omega)] at hbytes
      rw [haddr]
      exact hbytes.2
    exact ⟨hfit', hlen', hbytes'⟩
  · have haddr : (a + n).toNat = 0 := by rw [BitVec.toNat_add]; omega
    have hfit' : (a + n).toNat + m.toNat ≤ s.bufSize := by omega
    exact ⟨hfit', hlen', fun j hj => absurd hj (by omega)⟩

/-- Settles O41: the second span continues the fold of the first one's bytes, and folding the two parts is folding the
whole. -/
theorem chainedSpansEqualOneSpan : Obligations.ChainedSpansEqualOneSpan := by
  intro s a n m bs hsize hnm h
  have hfirst := accumulateSpan_of_spanHolds s.acc (State.spanHolds_take hnm h)
  have hsecond := State.spanHolds_drop hsize hnm h
  refine ⟨_, _, _, hfirst, accumulateSpan_of_spanHolds (crcFold s.acc (bs.take n.toNat)) hsecond,
    accumulateSpan_of_spanHolds s.acc h, ?_⟩
  show crcFold (crcFold s.acc (bs.take n.toNat)) (bs.drop n.toNat) = crcFold s.acc bs
  rw [← crcFold_append, List.take_append_drop]

end Sys2Proof.Machine
end

section
/-! What DFU_APPEND leaves (42_dfu_suffix.md R180 to R183): the output file, its own suffix, its residue; and what the
commands and reads after a write see (20_memory.md R61, R64). -/

namespace Sys2Proof.Machine

/-! ### The state after a DFU_APPEND -/

/-- `s` after DFU_APPEND has appended the suffix of `image`. -/
def State.appended (s : State) (image : List Byte) : State :=
  { s with
    buf := appendedBuffer s.buf (s.addr.toNat + s.len.toNat) image
    acc := crcFold crcInit (image ++ fixedSuffix)
    len := BitVec.ofNat 32 (s.len.toNat + 16)
    response := none }

section
variable {s : State} {image : List Byte}

theorem exec_dfuAppend_of_imageReady (h : s.imageReady image) :
    exec .dfuAppend s = .next (s.appended image) :=
  execDfuAppend_of_imageReady h

theorem State.appended_acc : (s.appended image).acc = crcFold crcInit (image ++ fixedSuffix) := rfl

theorem State.appended_resultWord : (s.appended image).resultWord = dwCrc image := rfl

theorem State.appended_len_toNat (h : s.len.toNat + 16 < 2 ^ 32) :
    (s.appended image).len.toNat = s.len.toNat + 16 :=
  Nat.mod_eq_of_lt h

/-- The image stays where it stood, below the suffix. -/
theorem State.appended_holdsBytes (h : s.imageReady image) :
    (s.appended image).holdsBytes s.addr.toNat (image ++ suffixOf image) := by
  obtain ⟨-, hlen, hbytes⟩ := h
  refine State.holdsBytes_append.mpr ⟨fun j hj => ?_, fun j hj => ?_⟩
  · exact (appendedBuffer_read_outside _ image (.inl (by omega))).trans (hbytes j hj)
  · rw [hlen]
    exact appendedBuffer_read_suffix _ _ image (by simpa using hj)

/-- The span after the append is the output file (R180), unless LEN wrapped. -/
theorem State.appended_spanHolds (h : s.imageReady image) (hwrap : s.len.toNat + 16 < 2 ^ 32) :
    (s.appended image).spanHolds (image ++ suffixOf image) := by
  have hlen := State.appended_len_toNat (image := image) hwrap
  refine ⟨?_, ?_, State.appended_holdsBytes h⟩
  · rw [hlen]
    exact h.1
  · rw [hlen, List.length_append, suffixOf_length, h.2.1]

/-- With 32 bytes of room the output file is itself ready as an image (R182). -/
theorem State.appended_imageReady (h : s.imageReady image) (hwrap : s.len.toNat + 16 < 2 ^ 32)
    (hroom : s.addr.toNat + s.len.toNat + 32 ≤ s.bufSize) :
    (s.appended image).imageReady (image ++ suffixOf image) := by
  obtain ⟨-, hlength, hbytes⟩ := State.appended_spanHolds h hwrap
  refine ⟨?_, hlength, hbytes⟩
  rw [State.appended_len_toNat hwrap]
  exact hroom

end

/-! ### The output file -/

/-- Settles O44: the state after the append holds the output file in its span. -/
theorem outputFileIsImageThenSuffix : Obligations.OutputFileIsImageThenSuffix :=
  fun _ _ h hwrap => ⟨_, exec_dfuAppend_of_imageReady h, State.appended_spanHolds h hwrap,
    State.appended_len_toNat hwrap, State.appended_resultWord⟩

theorem crcFold_fixedSuffix : crcFold crcInit fixedSuffix = 0x887BF1E1 := by decide +kernel

theorem suffixOf_nil : suffixOf [] =
    [0xFF, 0xFF, 0xFF, 0xFF, 0xFF, 0xFF, 0x00, 0x01, 0x55, 0x46, 0x44, 0x10, 0x1E, 0x0E, 0x84, 0x77] := by
  have hcrc : dwCrc [] = 0x77840E1E := by
    rw [dwCrc, crc32, List.nil_append, crcFold_fixedSuffix]
    decide
  rw [suffixOf_eq, hcrc]
  decide

/-- Settles O45: an empty image is ready exactly where 16 bytes fit at ADDR, and its suffix is closed. -/
theorem emptyImageSuffix : Obligations.EmptyImageSuffix := by
  intro s hlen
  have hzero : s.len.toNat = 0 := by rw [hlen]; rfl
  refine ⟨fun hroom => ?_, fun hroom => execDfuAppend_of_noRoom (by omega)⟩
  have hready : s.imageReady [] := ⟨by omega, hzero.symm, fun _ hj => absurd hj (Nat.not_lt_zero _)⟩
  refine ⟨_, exec_dfuAppend_of_imageReady hready, ?_, ?_, ?_⟩
  · rw [State.appended_acc, List.nil_append, crcFold_fixedSuffix]
  · rw [State.appended, hzero]
    rfl
  · rw [← suffixOf_nil]
    exact State.appended_holdsBytes hready

/-- Settles O46: the second append takes the first output as its image. -/
theorem secondAppendExtendsTheOutput : Obligations.SecondAppendExtendsTheOutput := by
  intro s t image h hwrap hroom hnext
  obtain rfl := Host.Outcome.next.inj ((exec_dfuAppend_of_imageReady h).symm.trans hnext)
  have hsecond := State.appended_imageReady h hwrap hroom
  refine ⟨_, exec_dfuAppend_of_imageReady hsecond, rfl, State.appended_holdsBytes hsecond, ?_⟩
  show BitVec.ofNat 32 ((s.appended image).len.toNat + 16) = _
  rw [State.appended_len_toNat hwrap]

/-- A legal size leaves room for a wrapping LEN at ADDR 0 alone (R181). -/
theorem State.appended_of_wrap {s : State} {image : List Byte} (h : s.imageReady image)
    (hsize : Config.legalBufSize s.bufSize) (hwrap : 2 ^ 32 ≤ s.len.toNat + 16) :
    s.addr = 0 ∧ (s.appended image).len = 0 := by
  have hfit := h.1
  have hmax : s.bufSize ≤ 2 ^ 32 := hsize.2
  have hlen : s.len.toNat + 16 = 2 ^ 32 := by omega
  refine ⟨BitVec.eq_of_toNat_eq (show s.addr.toNat = 0 by omega), ?_⟩
  rw [State.appended, hlen]
  rfl

/-- Settles O47: CRC_COMPUTE folds the output file, whose CRC-32 is the residue of every output, or, where LEN wrapped,
no bytes. -/
theorem outputCrcIsTheResidue : Obligations.OutputCrcIsTheResidue := by
  refine ⟨crc32_append_suffixOf, fun s t image h hnext => ?_⟩
  obtain rfl := Host.Outcome.next.inj ((exec_dfuAppend_of_imageReady h).symm.trans hnext)
  refine ⟨fun hwrap => ?_, fun hsize hwrap => ?_⟩
  · exact ⟨_, accumulateSpan_of_spanHolds crcInit (State.appended_spanHolds h hwrap),
      crc32_append_suffixOf image⟩
  · obtain ⟨haddr, hlen⟩ := State.appended_of_wrap h hsize hwrap
    have hin : (s.appended image).addr.toNat ≤ (s.appended image).bufSize :=
      Nat.le_trans (by rw [Nat.add_assoc]; exact Nat.le_add_right _ _) h.1
    exact ⟨haddr, hlen, _, accumulateSpan_of_spanHolds crcInit (State.spanHolds_nil hlen hin),
      crcFinish_crcInit⟩

/-! ### The latest write is seen -/

/-- A BUFW to byte `j` of a span completes it, whether the byte was written before or not. -/
theorem State.holdsBytes_write {s : State} {a j : Nat} {b : Byte} {bs : List Byte}
    (hother : ∀ i, i < bs.length → i ≠ j → s.buf.read (a + i) = bs[i]?) (hbyte : bs[j]? = some b) :
    (s.memWrite (a + j) b).holdsBytes a bs := by
  intro i hi
  rw [State.memWrite_buf]
  by_cases hij : i = j
  · rw [hij, Memory.read_write_same, hbyte]
  · rw [Memory.read_write_other _ _ (by omega), hother i hi hij]

/-- Settles O28: the state after the BUFW holds the span's bytes, so each command folds or appends to those; the state
after a DFU_APPEND holds the suffix. -/
theorem commandsSeeTheLatestBufferWrite : Obligations.CommandsSeeTheLatestBufferWrite := by
  refine ⟨fun s t bs j a d hfit hlen hj hother hbyte ha hnext => ?_,
    fun s t image k a h hnext hk ha => ?_⟩
  · have hin : a.toNat < s.bufSize := by omega
    obtain rfl := Host.Outcome.next.inj ((execBufw_of_inRange hin).symm.trans hnext)
    have hbytes := State.holdsBytes_write hother hbyte
    rw [← ha] at hbytes
    refine ⟨execBufr_of_written hin (Memory.read_write_same _ _ _),
      accumulateSpan_of_spanHolds s.acc ⟨hfit, hlen, hbytes⟩,
      accumulateSpan_of_spanHolds crcInit ⟨hfit, hlen, hbytes⟩, fun hroom => ?_⟩
    exact ⟨_, exec_dfuAppend_of_imageReady ⟨hroom, hlen, hbytes⟩, State.appended_resultWord,
      State.appended_holdsBytes ⟨hroom, hlen, hbytes⟩⟩
  · obtain rfl := Host.Outcome.next.inj ((exec_dfuAppend_of_imageReady h).symm.trans hnext)
    have hfit := h.1
    have hsuffix : k < (suffixOf image).length := by simpa using hk
    have hread : (s.appended image).buf.read a.toNat = (suffixOf image)[k]? :=
      ha ▸ appendedBuffer_read_suffix _ _ image hk
    rw [List.getElem?_eq_getElem hsuffix] at hread ⊢
    exact ⟨_, rfl, execBufr_of_written (show a.toNat < s.bufSize by omega) hread⟩

end Sys2Proof.Machine
end
